-- ==== Sys2Proof/Word.lean ====
section
/-! DEFINITION. The word types of the framer (00_scope.md R3, 30_encoding.md R51). Every value is unsigned. -/

namespace Sys2Proof

/-- A byte: 8 bits, unsigned (R3). -/
abbrev Byte := BitVec 8

/-- The width of `declared_length`: 16 bits, unsigned (R3). -/
abbrev Length := BitVec 16

/-- The 11-bit command word `op[10:9] avail[8] data[7:0]` (R51). -/
abbrev CommandWord := BitVec 11

end Sys2Proof
end

