-- ==== Sys2Proof/Syntax.lean ====
section
/-! DEFINITION. The commands of the framer, one constructor per row of spec/opcode_table.json, and the
pseudo-instructions of 30_encoding.md R63. -/

namespace Sys2Proof

/-- A command of the framer (30_encoding.md R57). -/
inductive Instr where
  /-- `IDLE`: the caller does not poll (40_packet_buffer.md R80). -/
  | idle
  /-- `POLL.WAIT`: a poll for which the byte source has no byte (41_byte_admission.md R91). -/
  | pollWait
  /-- `POLL.BYTE`: a poll for which the byte source yields `data` (R92 to R95). -/
  | pollByte (data : Byte)
  /-- `RESET`: empty the buffer (40_packet_buffer.md R78). -/
  | reset
  /-- `RESERVED`: `op = 0b11` (R81, 30_encoding.md R58). It has no canonical word, so the nine
  ignored bits `avail` and `data` stay with it. -/
  | reserved (ignored : BitVec 9)
deriving DecidableEq, Repr

/-- A pseudo-instruction (30_encoding.md R63). -/
inductive Pseudo where
  /-- `FEED b0, ..., bk`. -/
  | feed (bytes : List Byte)
  /-- `REP n, <command>`. -/
  | rep (count : Nat) (command : Instr)
  /-- `PACKET t, p0, ..., pk`, or `PACKET t` with no payload. -/
  | packet (type : Byte) (payload : List Byte)
deriving DecidableEq, Repr

end Sys2Proof
end

