-- ==== Sys2Proof/Decode.lean ====
section
/-! DEFINITION. Decoding and encoding of the 11-bit command word (30_encoding.md R51, R56, R57), with the
opcode table as data. -/

namespace Sys2Proof

/-- The `op` field, bits 10:9 (R51). -/
def opField (w : CommandWord) : BitVec 2 := w.extractLsb' 9 2

/-- The `avail` field, bit 8 (R51). -/
def availField (w : CommandWord) : Bool := w.getLsbD 8

/-- The `data` field, bits 7:0 (R51). -/
def dataField (w : CommandWord) : Byte := w.extractLsb' 0 8

/-- A command word from its three fields (R51). -/
def commandWord (op : BitVec 2) (avail : Bool) (data : Byte) : CommandWord :=
  op ++ (BitVec.ofBool avail ++ data)

/-- The command a word selects (R56, R57). Total: the five rows cover all 2048 words. -/
def decode (w : CommandWord) : Instr :=
  if opField w = 0b00#2 then .idle
  else if opField w = 0b01#2 then
    if availField w then .pollByte (dataField w) else .pollWait
  else if opField w = 0b10#2 then .reset
  else .reserved (w.extractLsb' 0 9)

/-- Why bits given from outside are no command word. -/
inductive DecodeError where
  /-- A bit above bit 10 is set: the command word "has a single fixed length of 11 bits"
  (30_encoding.md R61). Safe: nothing is decoded. -/
  | wordTooWide
deriving DecidableEq, Repr

/-- Decode a number: a command word has 11 bits, and anything wider is rejected by name (R61). -/
-- DESIGN CHOICE, safe: notes/assumptions/13.md.
def decodeNat (w : Nat) : Except DecodeError Instr :=
  if w < 2048 then .ok (decode (BitVec.ofNat 11 w)) else .error .wordTooWide

/-- The command the decoder reads from `nbits` bits `w`, numbered as the opcode table numbers them. -/
def decodeTableWord (nbits w : Nat) : Option Instr :=
  match decodeNat (w % 2 ^ nbits) with
  | .ok i => some i
  | .error _ => none

/-- The word of a command: the canonical word of R57, which writes ignored bits as 0 (R56). The
reserved command has no canonical word and is written with the bits it carries. -/
def encode : Instr → CommandWord
  | .idle => 0x000#11
  | .pollWait => 0x200#11
  | .pollByte data => commandWord 0b01#2 true data
  | .reset => 0x400#11
  | .reserved ignored => 0b11#2 ++ ignored

/-- The name the opcode table gives a command's row. -/
def Instr.mnemonic : Instr → String
  | .idle => "IDLE"
  | .pollWait => "POLL.WAIT"
  | .pollByte _ => "POLL.BYTE"
  | .reset => "RESET"
  | .reserved _ => "RESERVED"

/-- A row of the opcode table: a word `w` selects it when `w & mask == pattern` (R57). -/
structure OpcodeRow where
  mnemonic : String
  pattern : CommandWord
  mask : CommandWord
deriving DecidableEq, Repr

/-- A word selects a row (R57). -/
def OpcodeRow.selects (r : OpcodeRow) (w : CommandWord) : Bool := w &&& r.mask == r.pattern

/-- The opcode table of R57. -/
def opcodeRows : List OpcodeRow :=
  [⟨"IDLE", 0x000#11, 0x600#11⟩, ⟨"POLL.WAIT", 0x200#11, 0x700#11⟩,
    ⟨"POLL.BYTE", 0x300#11, 0x700#11⟩, ⟨"RESET", 0x400#11, 0x600#11⟩,
    ⟨"RESERVED", 0x600#11, 0x600#11⟩]

end Sys2Proof
end

