-- ==== Sys2Proof/Config.lean ====
section
/-! DEFINITION. The implementation parameters (00_scope.md section 4, R1 and R2). -/

namespace Sys2Proof

/-- The two configuration values of a framer (R1, R2). Every shared operation that the capacity
can influence takes a `Config`; the machine is `Config.hardware`. -/
structure Config where
  /-- `MAX_PACKET_SIZE`, written `N`: the capacity of the buffer in bytes (R1). -/
  maxPacketSize : Nat
  /-- `MIN_INTER_PACKET_DELAY`, in microseconds (R2, 90_conflicts.md C3). No rule reads it. -/
  minInterPacketDelay : Nat
deriving DecidableEq, Repr

/-- This hardware's values: 256 bytes and 100000 microseconds (R1, R2). -/
-- UNVERIFIED literals, unsafe: notes/assumptions/10.md.
def Config.hardware : Config where
  maxPacketSize := 256
  minInterPacketDelay := 100000

/-- The range the spec admits for `N`: `3 <= N <= 65535` (R1, 92_eei_decisions.md D9). -/
abbrev Config.Admitted (cfg : Config) : Prop :=
  3 ≤ cfg.maxPacketSize ∧ cfg.maxPacketSize ≤ 65535

/-- `SIZE_W = ceil(log2(N + 1))`, the number of bits that hold `0 .. N` (R3). -/
def Config.sizeWidth (cfg : Config) : Nat := Nat.log2 cfg.maxPacketSize + 1

end Sys2Proof
end

