-- ==== Sys2Proof/Machine/State.lean ====
section
/-! DEFINITION. The framer's state (10_state.md R10 to R12), its ports (R21, R22), the results of a poll
(30_encoding.md R52), the reasons a step can stop, and the reset state (R23). -/

namespace Sys2Proof.Machine

/-- The buffer space: listed cells by address, addresses strictly rising. An unlisted address has
no value (10_state.md R14, 93_implementation_defined.md U1). -/
abbrev Memory := List Host.Cell

/-- The result of a `POLL` (30_encoding.md R52). It is an output of one step, never stored by the
framer (10_state.md R20, 90_conflicts.md C7). -/
inductive Status where
  /-- no byte was available; nothing changed -/
  | waiting
  /-- a byte was consumed; the packet is not complete -/
  | reading
  /-- a byte was consumed; `size == declared_length` -/
  | valid
  /-- a byte was consumed and discarded; the buffer was already oversized -/
  | invalid
deriving DecidableEq, Repr

/-- The input ports of one step (10_state.md R21); the clock edge is the step itself. -/
structure Inputs where
  /-- `rst`: hardware reset request, driven by the platform -/
  rst : Bool
  /-- `op`: operation select, driven by the caller -/
  op : BitVec 2
  /-- `src_avail`: the byte source has a byte for this step -/
  srcAvail : Bool
  /-- `src_data`: the byte it would yield; meaningful only when `srcAvail` -/
  srcData : Byte
  /-- `rd_addr`: the cell the caller looks at, driven by the caller -/
  rdAddr : BitVec 8
deriving DecidableEq, Repr

/-- The inputs of a step for which the environment says nothing: the caller does not poll, which is
`IDLE` (40_packet_buffer.md R80: "the caller simply stops polling"), and `rst` is not asserted. -/
-- DESIGN CHOICE, unsafe: notes/assumptions/1.md.
def Inputs.quiet : Inputs where
  rst := false
  op := 0b00#2
  srcAvail := false
  srcData := 0#8
  rdAddr := 0#8

/-- The output ports of one step (10_state.md R22). A data port is `none` where the spec gives the
port no value (93_implementation_defined.md U1, U2). The ports are exactly the eleven of R22's table.
R19 says that its four predicates are exported (naming R22), but the table has no port for
`complete`: the model follows the table, and `complete` is computed by `isComplete` and shown on no port. -/
-- DESIGN CHOICE, safe (no port for `complete`): notes/assumptions/17.md.
structure Outputs where
  /-- `status_valid` and `status`: the result of this step's `POLL`, or no result (R53) -/
  result : Option Status
  /-- `src_pop`: the source's head byte is consumed in this step -/
  srcPop : Bool
  /-- `size` -/
  size : Nat
  /-- `len_known` -/
  lenKnown : Bool
  /-- `dlen` -/
  dlen : Option Length
  /-- `type_known` -/
  typeKnown : Bool
  /-- `dtype` -/
  dtype : Option Byte
  /-- `oversized` -/
  oversized : Bool
  /-- `rd_valid` -/
  rdValid : Bool
  /-- `rd_data` -/
  rdData : Option Byte
deriving DecidableEq, Repr

/-- The state. `body` and `size` are the Packet Buffer, all that the framer stores (10_state.md R10).
`script` and `out` are the model's own: what the environment will present, and what the output ports
showed in the step that led here. No step reads `out`. -/
-- DESIGN CHOICE: notes/assumptions/1.md and notes/assumptions/5.md.
structure State where
  /-- the buffer's cells that hold a defined value (R11, R14) -/
  body : Memory
  /-- the count of valid bytes (R12) -/
  size : Nat
  /-- the inputs of the coming steps, the next step's first -/
  script : List Inputs
  /-- the outputs of the step just made; `none` before any step -/
  out : Option Outputs
deriving DecidableEq, Repr

/-- The faults of the framer: there is none. "The framer raises no exception, takes no trap, has no
fault state and never halts" (60_exceptions.md R120). -/
inductive Fault where
deriving DecidableEq, Repr

/-- Why the model gives no next state. -/
inductive Refusal where
  /-- Raised by `exec` for a command that has no meaning yet; no command is in that case. Safe. -/
  | notModelled (mnemonic : String)
  /-- Raised by `submit` for a command sequence that contains the reserved command: "A model refuses
  sequences that contain it" (70_reset_and_hazards.md R150). Safe: no claim is made about it. -/
  | reservedCommand
deriving DecidableEq, Repr

/-- The framer right after the hardware reset (10_state.md R23, 70_reset_and_hazards.md R140):
`size = 0` and no cell has a value. No input is scripted and no step has been made. -/
def State.reset : State where
  body := []
  size := 0
  script := []
  out := none

end Sys2Proof.Machine
end

