-- ==== Sys2Proof/Machine/Ops.lean ====
section
/-! DEFINITION. The operations on the buffer space and on the Packet Buffer: reading and writing cells
(20_memory.md R31 to R33), APPEND (40_packet_buffer.md R75, R76) and emptying the buffer (R78). The framer
takes no exception and returns from none (60_exceptions.md R120, R128, R129), so there is no such operation. -/

namespace Sys2Proof.Machine

/-- The byte listed at an address, if any. -/
def Memory.read : Memory → Nat → Option Byte
  | [], _ => none
  | (k, v) :: rest, a => if a = k then some v else Memory.read rest a

/-- `body[a] <- v`, keeping addresses strictly rising. -/
def Memory.write : Memory → Nat → Byte → Memory
  | [], a, v => [(a, v)]
  | (k, w) :: rest, a, v =>
    if a < k then (a, v) :: (k, w) :: rest
    else if a = k then (a, v) :: rest
    else (k, w) :: Memory.write rest a v

/-- The canonical form: addresses strictly rising. An unlisted address has no value, so there is no
listed cell to leave out. -/
abbrev Memory.wf (m : Memory) : Prop := (m.map Prod.fst).Pairwise (· < ·)

/-- `MemRead(a, 1)`: the byte of cell `a`; only the valid prefix has defined values (10_state.md R14). -/
-- DESIGN CHOICE, safe (no value at or above size): notes/assumptions/3.md.
def memRead1 (s : State) (a : Nat) : Option Byte :=
  if a < s.size then s.body.read a else none

/-- `MemRead(a, 2)`: big-endian, the byte at the lower index is the more significant (20_memory.md R32). -/
def memRead2 (s : State) (a : Nat) : Option Length :=
  match memRead1 s a, memRead1 s (a + 1) with
  | some hi, some lo => some (hi ++ lo)
  | _, _ => none

/-- `append(byte)`: store at cell `size` and count it when `size < N` (40_packet_buffer.md R75); at
capacity nothing happens and the byte is lost (R76). -/
-- DESIGN CHOICE, unsafe only for a size above N, which no run reaches: notes/assumptions/7.md.
def append (cfg : Config) (b : Byte) (s : State) : State :=
  if s.size < cfg.maxPacketSize then
    { s with body := s.body.write s.size b, size := s.size + 1 }
  else s

/-- `size <- 0`; every cell becomes undefined (40_packet_buffer.md R78, 10_state.md R14). The
`RESET` command and the hardware reset share it (70_reset_and_hazards.md R140). -/
def emptyBuffer (s : State) : State := { s with body := [], size := 0 }

/-- The valid prefix as bytes in arrival order (20_memory.md R40). -/
def validBytes (s : State) : List Byte := s.body.map Prod.snd

end Sys2Proof.Machine
end

