-- ==== Sys2Proof/Machine/Operands.lean ====
section
/-! DEFINITION. What a step takes in: the command word formed from the input ports (30_encoding.md R51),
the inputs of the coming step, and the two header values (40_packet_buffer.md R70, R71). -/

namespace Sys2Proof.Machine

/-- The command word of a step's inputs: `op ++ src_avail ++ src_data` (30_encoding.md R51). -/
def Inputs.word (i : Inputs) : CommandWord := commandWord i.op i.srcAvail i.srcData

/-- Inputs that present a command word, with `rst` not asserted and the given `rd_addr`. -/
def Inputs.ofWord (w : CommandWord) (rdAddr : BitVec 8) : Inputs where
  rst := false
  op := opField w
  srcAvail := availField w
  srcData := dataField w
  rdAddr := rdAddr

/-- The inputs of the coming step: the script's first, or quiet ones when the script is exhausted. -/
def State.input (s : State) : Inputs := s.script.headD Inputs.quiet

/-- `s` with the inputs of the coming step replaced by `i`. -/
def State.present (i : Inputs) (s : State) : State := { s with script := i :: s.script.tail }

/-- `declared_length()`: unknown while `size < 2`, else `MemRead(0, 2)` (40_packet_buffer.md R70). -/
-- DESIGN CHOICE, unsafe only where a header cell below size is not listed, which no run reaches: notes/assumptions/7.md.
def declaredLength (s : State) : Option Length :=
  if s.size < 2 then none else memRead2 s 0

/-- `declared_type()`: unknown while `size < 3`, else `MemRead(2, 1)` (40_packet_buffer.md R71). -/
def declaredType (s : State) : Option Byte :=
  if s.size < 3 then none else memRead1 s 2

end Sys2Proof.Machine
end

