-- ==== Sys2Proof/Machine/Flags.lean ====
section
/-! DEFINITION. The predicates of the state (10_state.md R19) and the four phases (41_byte_admission.md R102).
None is stored: each is recomputed from `body` and `size` (R20). -/

namespace Sys2Proof.Machine

/-- `len_known`: `size >= 2` (R19). -/
def lenKnown (s : State) : Bool := decide (2 ≤ s.size)

/-- `type_known`: `size >= 3` (R19). -/
def typeKnown (s : State) : Bool := decide (3 ≤ s.size)

/-- `is_oversized()`: false while the length is unknown, else `size > declared_length`, strictly and
unsigned (40_packet_buffer.md R72, R84; 90_conflicts.md C2). -/
-- UNVERIFIED against the original code, unsafe after a VALID without reset: notes/assumptions/8.md and 9.md.
def isOversized (s : State) : Bool :=
  match declaredLength s with
  | none => false
  | some len => decide (len.toNat < s.size)

/-- `complete`: the length is known and `size == declared_length` (R19, R84). R22's table gives it no
output port (notes/assumptions/17.md). -/
def isComplete (s : State) : Bool :=
  match declaredLength s with
  | none => false
  | some len => decide (s.size = len.toNat)

/-- The four phases of the stored state (41_byte_admission.md R102). -/
inductive Phase where
  /-- `HEADER`: `size < 2` -/
  | header
  /-- `ASSEMBLING`: `size >= 2` and `size < declared_length` -/
  | assembling
  /-- `COMPLETE`: `size >= 2` and `size == declared_length` -/
  | complete
  /-- `OVERSIZED`: `size >= 2` and `size > declared_length` -/
  | oversized
deriving DecidableEq, Repr

/-- The phase of a state (R102). -/
def phase (s : State) : Phase :=
  match declaredLength s with
  | none => .header
  | some len =>
    if s.size < len.toNat then .assembling
    else if s.size = len.toNat then .complete
    else .oversized

end Sys2Proof.Machine
end

