-- ==== Sys2Proof/Machine/Ports.lean ====
section
/-! DEFINITION. The output ports (10_state.md R22), the status code (30_encoding.md R52, R53) and the end
of a step: the outputs are shown and the step's inputs are used up. -/

namespace Sys2Proof.Machine

/-- The outputs of a step from pre-state `s`: the state outputs show `s`, the read port answers for
this step's `rd_addr` (R22, 20_memory.md R41), and the command gives its result and `src_pop`. -/
def outputs (s : State) (result : Option Status) (pop : Bool) : Outputs where
  result := result
  srcPop := pop
  size := s.size
  lenKnown := lenKnown s
  dlen := declaredLength s
  typeKnown := typeKnown s
  dtype := declaredType s
  oversized := isOversized s
  rdValid := decide (s.input.rdAddr.toNat < s.size)
  rdData := memRead1 s s.input.rdAddr.toNat

/-- The end of a step from pre-state `s` whose command left the Packet Buffer as in `t`. -/
def finish (s : State) (result : Option Status) (pop : Bool) (t : State) : State :=
  { t with script := s.script.tail, out := some (outputs s result pop) }

/-- The hardware reset (70_reset_and_hazards.md R140): the buffer is emptied, the command is ignored,
no byte is consumed and no status is returned (60_exceptions.md R127). -/
-- DEDUCED, unsafe for the state outputs of this step: notes/assumptions/11.md.
def hardwareReset (s : State) : State := finish s none false (emptyBuffer s)

/-- The 2-bit code of a result (30_encoding.md R52). -/
def Status.code : Status → BitVec 2
  | .waiting => 0b00#2
  | .reading => 0b01#2
  | .valid => 0b10#2
  | .invalid => 0b11#2

/-- Levels on the eleven output ports, at their widths (R22). -/
structure Pins where
  statusValid : Bool
  status : BitVec 2
  srcPop : Bool
  size : BitVec 9
  lenKnown : Bool
  dlen : BitVec 16
  typeKnown : Bool
  dtype : BitVec 8
  oversized : Bool
  rdValid : Bool
  rdData : BitVec 8
deriving DecidableEq, Repr

/-- Which pin levels the outputs allow. `status` is `0b00` in a step with no result (R53). A data port
to which the spec gives no value may hold any level (93_implementation_defined.md U1, U2). -/
-- DEDUCED, safe: notes/assumptions/4.md.
abbrev Outputs.Drives (o : Outputs) (p : Pins) : Prop :=
  p.statusValid = o.result.isSome ∧
  p.status = (match o.result with | some r => r.code | none => 0b00#2) ∧
  p.srcPop = o.srcPop ∧
  p.size.toNat = o.size ∧
  p.lenKnown = o.lenKnown ∧
  (∀ v ∈ o.dlen, p.dlen = v) ∧
  p.typeKnown = o.typeKnown ∧
  (∀ v ∈ o.dtype, p.dtype = v) ∧
  p.oversized = o.oversized ∧
  p.rdValid = o.rdValid ∧
  (∀ v ∈ o.rdData, p.rdData = v)

end Sys2Proof.Machine
end

