-- ==== Sys2Proof/Machine/ByteAdmission.lean ====
section
/-! DEFINITION. The Byte Admission Step: POLL.WAIT and POLL.BYTE (41_byte_admission.md R90 to R95). -/

namespace Sys2Proof.Machine

/-- Steps 3 to 6 of the admission step: reject when the pre-state is oversized (R93); otherwise append
(R94) and classify the post-state (R95). The Packet Buffer afterwards, and the result. -/
def admitByte (cfg : Config) (b : Byte) (s : State) : State × Status :=
  if isOversized s then (s, .invalid)
  else if isComplete (append cfg b s) then (append cfg b s, .valid)
  else (append cfg b s, .reading)

/-- `POLL.WAIT`: `WAITING`, and nothing changes (41_byte_admission.md R91). -/
def execPollWait (s : State) : Host.Outcome State Fault Refusal :=
  .next (finish s (some .waiting) false s)

/-- `POLL.BYTE` at the capacity of `cfg`: the byte is consumed whatever happens next
(41_byte_admission.md R92), then admitted or rejected (R93 to R95). -/
def pollByteAt (cfg : Config) (data : Byte) (s : State) : Host.Outcome State Fault Refusal :=
  .next (finish s (some (admitByte cfg data s).2) true (admitByte cfg data s).1)

/-- `POLL.BYTE` of this hardware, whose capacity is 256 (00_scope.md R1). -/
def execPollByte (data : Byte) (s : State) : Host.Outcome State Fault Refusal :=
  pollByteAt Config.hardware data s

end Sys2Proof.Machine
end

