-- ==== Sys2Proof/Machine/PacketBuffer.lean ====
section
/-! DEFINITION. The commands of the Packet Buffer: IDLE, RESET and the reserved command
(40_packet_buffer.md R78 to R81). -/

namespace Sys2Proof.Machine

/-- `IDLE`: `s' = s`, `src_pop = 0`, `status_valid = 0` (40_packet_buffer.md R80). -/
def execIdle (s : State) : Host.Outcome State Fault Refusal :=
  .next (finish s none false s)

/-- `RESET`: `size <- 0`, the cells become undefined; no byte is consumed and no status is returned
(40_packet_buffer.md R78). It has no precondition (R79). -/
def execReset (s : State) : Host.Outcome State Fault Refusal :=
  .next (finish s none false (emptyBuffer s))

/-- The reserved command: the framer executes it as `IDLE` (40_packet_buffer.md R81, 30_encoding.md
R58). A sequence that contains it is refused where it is submitted (`submit`). -/
-- DEDUCED, unsafe if the encoding is assigned later: notes/assumptions/2.md.
def execReserved (s : State) : Host.Outcome State Fault Refusal :=
  .next (finish s none false s)

end Sys2Proof.Machine
end

