-- ==== Sys2Proof/Machine/Dispatch.lean ====
section
/-! DEFINITION. The dispatch of a command to its meaning (30_encoding.md R57). -/

namespace Sys2Proof.Machine

def exec (i : Instr) (s : State) : Host.Outcome State Fault Refusal :=
  match i with
  | .idle => Sys2Proof.Machine.execIdle s
  | .pollWait => Sys2Proof.Machine.execPollWait s
  | .pollByte data => Sys2Proof.Machine.execPollByte data s
  | .reset => Sys2Proof.Machine.execReset s
  | .reserved _ => Sys2Proof.Machine.execReserved s

end Sys2Proof.Machine
end

