-- ==== Sys2Proof/Machine/Step.lean ====
section
/-! DEFINITION. One step (00_scope.md section 5.2, 70_reset_and_hazards.md R152): the inputs are sampled,
`rst` overrides the command (60_exceptions.md R127), otherwise the command word is decoded and executed. -/

namespace Sys2Proof.Machine

/-- One step of the framer. -/
def step (s : State) : Host.Outcome State Fault Refusal :=
  if s.input.rst then .next (hardwareReset s) else exec (decode s.input.word) s

/-- `s` with the command of `nbits` bits `w` (bit 0 the least significant) presented at the coming
step, `rst` not asserted; `rd_addr` and the later steps' inputs stay as they are. -/
-- DESIGN CHOICE, safe: notes/assumptions/13.md.
def State.withFetchWord (s : State) (nbits w : Nat) : State :=
  s.present (Inputs.ofWord (BitVec.ofNat 11 (w % 2 ^ nbits)) s.input.rdAddr)

end Sys2Proof.Machine
end

