-- ==== Sys2Proof/WellFormed.lean ====
section
/-! DEFINITION. Which terms a caller may write. The framer's step asks for none of this (41_byte_admission.md
R107): these checks are the caller's duty (70_reset_and_hazards.md R150) and the shape of the
pseudo-instructions (30_encoding.md R63). -/

namespace Sys2Proof

/-- A command a caller may issue: every one but the reserved command (30_encoding.md R58,
70_reset_and_hazards.md R150). -/
def Instr.wf : Instr → Bool
  | .idle => true
  | .pollWait => true
  | .pollByte _ => true
  | .reset => true
  | .reserved _ => false

/-- A pseudo-instruction whose expansion R63 defines: `FEED` has at least one byte, `REP` repeats a
command a caller may issue, and the length of a `PACKET` fits the 16-bit length field. -/
def Pseudo.wf : Pseudo → Bool
  | .feed bytes => !bytes.isEmpty
  | .rep _ command => command.wf
  | .packet _ payload => decide (payload.length + 3 < 65536)

/-- A command sequence that contains no reserved command (R150). -/
def programWf (program : List Instr) : Bool := program.all Instr.wf

end Sys2Proof
end

