-- ==== Sys2Proof/Machine/Listing.lean ====
section
/-! DEFINITION. The line notation of command sequences (30_encoding.md R62) and the pseudo-instructions'
expansion (R63). Lines are lists of characters. -/

namespace Sys2Proof.Machine.Listing

/-- The expansion of a pseudo-instruction (R63). -/
def expand : Pseudo → List Instr
  | .feed bytes => bytes.map Instr.pollByte
  | .rep count command => List.replicate count command
  | .packet type payload =>
    let len : Length := BitVec.ofNat 16 (3 + payload.length)
    (len.extractLsb' 8 8 :: len.extractLsb' 0 8 :: type :: payload).map Instr.pollByte

/-- The digit of a number below 16. -/
def hexChar (n : Nat) : Char :=
  if n < 10 then Char.ofNat (48 + n) else Char.ofNat (55 + n)

/-- The value of a hexadecimal digit. -/
def hexValue (c : Char) : Option Nat :=
  if 48 ≤ c.toNat ∧ c.toNat ≤ 57 then some (c.toNat - 48)
  else if 65 ≤ c.toNat ∧ c.toNat ≤ 70 then some (c.toNat - 55)
  else if 97 ≤ c.toNat ∧ c.toNat ≤ 102 then some (c.toNat - 87)
  else none

/-- A byte operand is written in hexadecimal with `0x` (R62). -/
def writeByte (b : Byte) : List Char :=
  ['0', 'x', hexChar (b.toNat / 16), hexChar (b.toNat % 16)]

/-- Read a byte operand (R62). -/
def readByte : List Char → Option Byte
  | ['0', 'x', h, l] =>
    match hexValue h, hexValue l with
    | some hi, some lo => some (BitVec.ofNat 8 (16 * hi + lo))
    | _, _ => none
  | _ => none

/-- Read a decimal count. -/
def readCount : List Char → Nat → Option Nat
  | [], acc => some acc
  | c :: rest, acc =>
    if 48 ≤ c.toNat ∧ c.toNat ≤ 57 then readCount rest (10 * acc + (c.toNat - 48)) else none

/-- The tokens of a line: blanks separate them, a comma is one of its own, `;` starts a comment.
`word` is the token being read, reversed. -/
def tokens : List Char → List Char → List (List Char)
  | [], word => if word.isEmpty then [] else [word.reverse]
  | c :: rest, word =>
    let before := if word.isEmpty then [] else [word.reverse]
    if c = ';' then before
    else if c = ' ' then before ++ tokens rest []
    else if c = ',' then before ++ [','] :: tokens rest []
    else tokens rest (c :: word)

/-- Read `b0, b1, ..., bk`. -/
def readBytes : List (List Char) → Option (List Byte)
  | [] => none
  | [t] => (readByte t).map ([·])
  | t :: [','] :: rest =>
    match readByte t, readBytes rest with
    | some b, some bs => some (b :: bs)
    | _, _ => none
  | _ :: _ :: _ => none

/-- Read a command of R62 from its tokens. -/
def readCommand : List (List Char) → Option Instr
  | [['I', 'D', 'L', 'E']] => some .idle
  | [['R', 'E', 'S', 'E', 'T']] => some .reset
  | [['P', 'O', 'L', 'L'], ['-']] => some .pollWait
  | [['P', 'O', 'L', 'L'], t] => (readByte t).map Instr.pollByte
  | _ => none

/-- Read a pseudo-instruction of R63 from its tokens. -/
def readPseudo : List (List Char) → Option Pseudo
  | ['F', 'E', 'E', 'D'] :: rest => (readBytes rest).map Pseudo.feed
  | ['R', 'E', 'P'] :: count :: [','] :: rest =>
    match readCount count 0, readCommand rest with
    | some n, some i => some (.rep n i)
    | _, _ => none
  | ['P', 'A', 'C', 'K', 'E', 'T'] :: rest =>
    match readBytes rest with
    | some (type :: payload) => some (.packet type payload)
    | _ => none
  | _ => none

/-- The commands of one line: a command, a pseudo-instruction that is well formed, or nothing for an
empty or comment line. `none`: the line is not of R62 or R63. -/
-- DESIGN CHOICE, safe: notes/assumptions/14.md.
def readLine (line : List Char) : Option (List Instr) :=
  match tokens line [] with
  | [] => some []
  | ts =>
    match readCommand ts with
    | some i => some [i]
    | none =>
      match readPseudo ts with
      | some p => if p.wf then some (expand p) else none
      | none => none

/-- The commands of a listing, one command per line (R62). -/
def readListing : List (List Char) → Option (List Instr)
  | [] => some []
  | line :: rest =>
    match readLine line, readListing rest with
    | some is, some more => some (is ++ more)
    | _, _ => none

/-- A command as R62 writes it; the reserved command has no notation. -/
def writeCommand : Instr → Option (List Char)
  | .idle => some ['I', 'D', 'L', 'E']
  | .reset => some ['R', 'E', 'S', 'E', 'T']
  | .pollWait => some ['P', 'O', 'L', 'L', ' ', '-']
  | .pollByte data => some (['P', 'O', 'L', 'L', ' '] ++ writeByte data)
  | .reserved _ => none

end Sys2Proof.Machine.Listing
end

