-- ==== Sys2Proof/Machine/Capacity.lean ====
section
/-! DEFINITION. The machine with its capacity `N` as an argument whose default is this hardware's 256
(00_scope.md R1, 92_eei_decisions.md D9, 93_implementation_defined.md U7). `exec`, `step` and `core` are its
instance at the default. -/

namespace Sys2Proof.Machine

/-- The meaning of a command at the capacity of `cfg`. Only `POLL.BYTE` depends on the capacity. -/
def execAt (cfg : Config) (i : Instr) (s : State) : Host.Outcome State Fault Refusal :=
  match i with
  | .idle => execIdle s
  | .pollWait => execPollWait s
  | .pollByte data => pollByteAt cfg data s
  | .reset => execReset s
  | .reserved _ => execReserved s

/-- One step at the capacity of `cfg`. -/
def stepAt (cfg : Config) (s : State) : Host.Outcome State Fault Refusal :=
  if s.input.rst then .next (hardwareReset s) else execAt cfg (decode s.input.word) s

/-- The machine at the capacity of `cfg`. The reset state is the same at every capacity (10_state.md R23). -/
def coreAt (cfg : Config := Config.hardware) : Host.Core where
  State := State
  Fault := Fault
  Refusal := Refusal
  step := stepAt cfg
  reset := State.reset

end Sys2Proof.Machine
end

