-- ==== Sys2Proof/Machine/Source.lean ====
section
/-! DEFINITION. The byte source as the framer sees it (20_memory.md R37 to R39), and the framer closed
with a source of waiting bytes that removes its head exactly when `src_pop = 1` (70_reset_and_hazards.md
R153, 92_eei_decisions.md D12). -/

namespace Sys2Proof.Machine

/-- The bytes waiting in the source, the head first. How they came there is the environment's. -/
abbrev Source := List Byte

/-- `has_byte_available()`, when the source is ready to answer in this step. When a byte becomes
available is the source's own choice (R37), so `ready` is free. -/
def Source.hasByteAvailable (ready : Bool) (src : Source) : Bool := ready && !src.isEmpty

/-- `read_byte()`: the next byte, and the source without it (R38). There is no answer when no byte is
waiting; the framer never asks then (R39). -/
def Source.readByte : Source → Option (Byte × Source)
  | [] => none
  | b :: rest => some (b, rest)

/-- What the caller and the platform drive in one step (10_state.md R21), and the source's freedom in
it: whether it is ready, and the level it leaves on `src_data` when it offers nothing. -/
structure Environment where
  rst : Bool
  op : BitVec 2
  rdAddr : BitVec 8
  ready : Bool
  idleData : Byte
deriving DecidableEq, Repr

/-- The input ports of a step: the source keeps `src_data` equal to its head byte while it offers one
(70_reset_and_hazards.md R153). -/
def Environment.inputs (e : Environment) (src : Source) : Inputs where
  rst := e.rst
  op := e.op
  srcAvail := Source.hasByteAvailable e.ready src
  srcData :=
    match Source.hasByteAvailable e.ready src, Source.readByte src with
    | true, some (b, _) => b
    | _, _ => e.idleData
  rdAddr := e.rdAddr

/-- The source after a step: the head byte is removed exactly when `src_pop = 1` (R38, R153). -/
def Source.afterStep (pop : Bool) (src : Source) : Source := if pop then src.tail else src

/-- The framer with its source. -/
-- DESIGN CHOICE, safe: notes/assumptions/15.md.
structure Closed where
  framer : State
  source : Source
deriving DecidableEq, Repr

/-- One step of the closed system, at this hardware's capacity unless another is given. -/
def Closed.step (e : Environment) (c : Closed) (cfg : Config := Config.hardware) :
    Host.Outcome Closed Fault Refusal :=
  match stepAt cfg (c.framer.present (e.inputs c.source)) with
  | .next t =>
    .next ⟨t, c.source.afterStep (match t.out with | some o => o.srcPop | none => false)⟩
  | .fault r => .fault r
  | .refused r => .refused r

/-- The closed system over a sequence of steps. It takes any levels of the ports, the reserved command
among them, which it runs as the hardware does, as IDLE (40_packet_buffer.md R81); it refuses nothing. The
sequences that R150 asks a model to refuse are refused by `submit` and at no other entry. -/
-- DESIGN CHOICE, unsafe for sequences that issue the reserved command: notes/assumptions/2.md.
def Closed.run (es : List Environment) (c : Closed) (cfg : Config := Config.hardware) :
    Host.Outcome Closed Fault Refusal :=
  match es with
  | [] => .next c
  | e :: rest =>
    match Closed.step e c cfg with
    | .next d => Closed.run rest d cfg
    | .fault r => .fault r
    | .refused r => .refused r

end Sys2Proof.Machine
end

