-- ==== Sys2Proof/Machine/Submit.lean ====
section
/-! DEFINITION. Submitting a command sequence: the place where a sequence that contains the reserved
command is refused (30_encoding.md R58, 70_reset_and_hazards.md R150, 93_implementation_defined.md U5). -/

namespace Sys2Proof.Machine

/-- The inputs issue a command the caller must not issue. Where `rst` is asserted the command word is
ignored (60_exceptions.md R127), so no command is issued. -/
def Inputs.issuesReserved (i : Inputs) : Bool := !i.rst && !(decode i.word).wf

/-- Script a sequence of inputs for the coming steps, or refuse it (70_reset_and_hazards.md R150). The spec
does not say at which entry a model refuses; this is the only one that does. -/
-- DESIGN CHOICE (the entry), unsafe for sequences given in another way: notes/assumptions/2.md.
def submit (sequence : List Inputs) (s : State) : Host.Outcome State Fault Refusal :=
  if sequence.any Inputs.issuesReserved then .refused .reservedCommand
  else .next { s with script := s.script ++ sequence }

/-- The inputs of a command sequence, with `rst` not asserted and the same `rd_addr` throughout. -/
def inputsOf (program : List Instr) (rdAddr : BitVec 8) : List Inputs :=
  program.map fun i => Inputs.ofWord (encode i) rdAddr

end Sys2Proof.Machine
end

