-- ==== Sys2Proof/Safety.lean ====
section
/-! DEFINITION. The terms in which claims speak of states and of runs: the state invariant, what a run
showed on the ports, the accounting of bytes, the result tables, and the duties of the environment
(70_reset_and_hazards.md R154), none of which the framer enforces. -/

namespace Sys2Proof.Safety

open Sys2Proof.Machine

/-- The states the framer can be in: the listed cells are exactly cells `0 .. size - 1` (10_state.md
R14) and `size <= N` (R13). It implies the canonical form of the buffer space. -/
abbrev BufferInv (cfg : Config) (s : State) : Prop :=
  s.body.map Prod.fst = List.range s.size ∧ s.size ≤ cfg.maxPacketSize

/-- The Packet Buffer is empty, as after either reset. -/
abbrev EmptyBuffer (s : State) : Prop := s.body = [] ∧ s.size = 0

/-- The Packet Buffer of `t` is that of `s`: the same cells and the same `size`. -/
abbrev SameBuffer (s t : State) : Prop := t.body = s.body ∧ t.size = s.size

/-- The step that led to `t` showed this result (`none`: no result) and this `src_pop`. -/
abbrev Shows (t : State) (result : Option Status) (pop : Bool) : Prop :=
  t.out.map Outputs.result = some result ∧ t.out.map Outputs.srcPop = some pop

/-- The inputs ask for one of the two resets: the pin, or the `RESET` command. -/
def asksReset (i : Inputs) : Bool := i.rst || decide (decode i.word = .reset)

/-- The inputs are a `POLL` (`op = 0b01`) that is not overridden by `rst`. -/
def polls (i : Inputs) : Bool := !i.rst && decide (i.op = 0b01#2)

/-- One step as seen from outside: what was presented and what the output ports showed. -/
structure Record where
  input : Inputs
  output : Outputs
deriving DecidableEq, Repr

/-- The record of the first `n` steps from a state, at this hardware's capacity unless another is
given. -/
def history (n : Nat) (s : State) (cfg : Config := Config.hardware) : List Record :=
  match n with
  | 0 => []
  | n + 1 =>
    match stepAt cfg s with
    | .next t => t.out.toList.map (Record.mk s.input) ++ history n t cfg
    | .fault _ => []
    | .refused _ => []

/-- Neither reset is asked for in the first `n` steps from a state. -/
abbrev NoReset (n : Nat) (s : State) (cfg : Config := Config.hardware) : Prop :=
  ∀ r ∈ history n s cfg, asksReset r.input = false

/-- The results of the `POLL.BYTE` steps, in order. -/
def byteResults (h : List Record) : List Status :=
  h.filterMap fun r => if r.output.srcPop then r.output.result else none

/-- The bytes consumed, in order (20_memory.md R38). -/
def consumedBytes (h : List Record) : List Byte :=
  h.filterMap fun r => if r.output.srcPop then some r.input.srcData else none

/-- The step consumed a byte and rejected it (60_exceptions.md R121). -/
def Record.rejects (r : Record) : Bool :=
  r.output.srcPop && decide (r.output.result = some .invalid)

/-- The step consumed a byte that `APPEND` dropped because `size == N` (60_exceptions.md R123). -/
def Record.drops (cfg : Config) (r : Record) : Bool :=
  r.output.srcPop && decide (r.output.result ≠ some .invalid) &&
    decide (r.output.size = cfg.maxPacketSize)

/-- The bytes stored, in order: consumed, neither rejected nor dropped (41_byte_admission.md R106). -/
def storedBytes (cfg : Config) (h : List Record) : List Byte :=
  consumedBytes (h.filter fun r => !r.rejects && !r.drops cfg)

/-- The length that the first two bytes of a stream declare (30_encoding.md R54). -/
def streamLength : List Byte → Option Nat
  | hi :: lo :: _ => some (256 * hi.toNat + lo.toNat)
  | _ => none

/-- The result of the `k`-th consumed byte of a stream that declares length `len`, by the rows of
41_byte_admission.md R101 (`N = 256`). -/
def trajectoryResult (len k : Nat) : Status :=
  if len ≤ 1 then (if k ≤ 2 then .reading else .invalid)
  else if len ≤ 255 then
    if k < len then .reading
    else if k = len then .valid
    else if k = len + 1 then .reading
    else .invalid
  else if len = 256 then (if k < 256 then .reading else .valid)
  else .reading

/-- The `size` after the `k`-th consumed byte, by the rows of R101. -/
def trajectorySize (len k : Nat) : Nat :=
  if len ≤ 1 then min k 2
  else if len ≤ 255 then min k (len + 1)
  else min k 256

/-- The caller issues `RESET` (or the platform `rst`) after every terminal result before it polls
again (70_reset_and_hazards.md R143). `pending`: a terminal result has not been answered yet. -/
def resetsAfterTerminal : Bool → List Record → Bool
  | _, [] => true
  | pending, r :: rest =>
    if asksReset r.input then resetsAfterTerminal false rest
    else if polls r.input then
      !pending && resetsAfterTerminal
        (decide (r.output.result = some .valid ∨ r.output.result = some .invalid)) rest
    else resetsAfterTerminal pending rest

/-- The caller does not poll once the declared length is seen to exceed `N` (R146, R154). -/
def checksLength (cfg : Config) (h : List Record) : Bool :=
  h.all fun r => !polls r.input ||
    (match r.output.dlen with
      | some len => decide (len.toNat ≤ cfg.maxPacketSize)
      | none => true)

/-- The caller looks at `oversized` and does not poll while it is 1 (R145). -/
def heedsOversized (h : List Record) : Bool :=
  h.all fun r => !(polls r.input && r.output.oversized)

/-- The caller never issues the reserved command (R150). -/
def legalCommands (h : List Record) : Bool := h.all fun r => !r.input.issuesReserved

/-- A byte source that holds `src` serves the run: while it offers a byte, `src_data` is its head,
and it removes its head exactly when `src_pop = 1` (R153). -/
def sourceServes : Source → List Record → Bool
  | _, [] => true
  | src, r :: rest =>
    (!r.input.srcAvail || decide (src.head? = some r.input.srcData)) &&
      sourceServes (src.afterStep r.output.srcPop) rest

end Sys2Proof.Safety
end

