-- ==== Sys2Proof/Certificates/Slice0/Obligations.lean ====
section
/-! DEFINITION. The statements for the provers. Each docstring names the rule of spec/ it formalises, or says
that it follows from rules the spec marks as derived, or that it is the model's choice. -/

open Sys2Proof Sys2Proof.Machine Sys2Proof.Safety

/-! ### Encoding -/

/-- 30_encoding.md section 3 (R57's table): every one of the 2048 words selects exactly one row of the
opcode table, and it is the row of the command the decoder gives. -/
def Obligations.EveryWordSelectsTheRowOfItsCommand : Prop :=
  ∀ w : CommandWord,
    (opcodeRows.filter fun r => r.selects w).map OpcodeRow.mnemonic = [(decode w).mnemonic]

/-- 95_test_vectors.md V1: the twelve command words written out there decode as it says. -/
def Obligations.WrittenOutWordsDecode : Prop :=
  decode 0b00000000000#11 = .idle ∧ decode 0b00111111111#11 = .idle ∧
  decode 0b00010100101#11 = .idle ∧ decode 0b01000000000#11 = .pollWait ∧
  decode 0b01010101011#11 = .pollWait ∧ decode 0b01100000000#11 = .pollByte 0x00#8 ∧
  decode 0b01100000101#11 = .pollByte 0x05#8 ∧ decode 0b01111111111#11 = .pollByte 0xFF#8 ∧
  decode 0b10000000000#11 = .reset ∧ decode 0b10111111111#11 = .reset ∧
  decode 0b11000000000#11 = .reserved 0b000000000#9 ∧
  decode 0b11111111111#11 = .reserved 0b111111111#9

/-- 30_encoding.md section 3: decoding gives every encoded command back, with its byte or its ignored
bits, also through the opcode table's numbering; the words of `POLL.BYTE d` are exactly `0x300 + d`;
and what a word decodes to encodes to that word with the bits the command ignores cleared. -/
def Obligations.DecodeOfEncodeIsTheCommand : Prop :=
  (∀ i : Instr, decode (encode i) = i ∧ decodeTableWord 16 (encode i).toNat = some i) ∧
  (∀ (w : CommandWord) (d : Byte),
    decode w = .pollByte d ↔ w = 0x300#11 + d.setWidth 11) ∧
  (∀ w : CommandWord, encode (decode w) =
    match decode w with
    | .idle => w &&& 0x600#11
    | .pollWait => w &&& 0x700#11
    | .pollByte _ => w
    | .reset => w &&& 0x600#11
    | .reserved _ => w)

/-- 30_encoding.md R56: `avail` selects between `POLL.WAIT` and `POLL.BYTE`, whose operand is `data` as
is; `POLL.WAIT` ignores `data`; `IDLE`, `RESET` and the reserved command ignore both and consume no
byte whatever `avail` says; the canonical encoding writes ignored bits as 0. -/
def Obligations.OperandFieldsDecode : Prop :=
  (∀ (avail : Bool) (data : Byte),
    decode (commandWord 0b01#2 avail data) = (if avail then .pollByte data else .pollWait) ∧
    decode (commandWord 0b00#2 avail data) = .idle ∧
    decode (commandWord 0b10#2 avail data) = .reset ∧
    (∃ ignored, decode (commandWord 0b11#2 avail data) = .reserved ignored)) ∧
  (∀ (s : State), s.input.rst = false → s.input.op ≠ 0b01#2 →
    ∃ t, step s = .next t ∧ Shows t none false) ∧
  encode .idle = commandWord 0b00#2 false 0#8 ∧ encode .pollWait = commandWord 0b01#2 false 0#8 ∧
  encode .reset = commandWord 0b10#2 false 0#8

/-- The model's choice (notes/assumptions/13.md), after 30_encoding.md section 5: bits wider than the
11-bit command word are no command. -/
def Obligations.WiderThanElevenBitsIsRejected : Prop :=
  ∀ nbits w : Nat, (decodeTableWord nbits w = none ↔ 2048 ≤ w % 2 ^ nbits) ∧
    ∀ i, decodeTableWord nbits w = some i → i = decode (BitVec.ofNat 11 (w % 2 ^ nbits))

/-- 30_encoding.md section 6 (R62): a command a caller may issue has a line, and the line reads back as
that command. -/
def Obligations.ListingReadsBack : Prop :=
  ∀ i : Instr, (i.wf = true ↔ (Listing.writeCommand i).isSome = true) ∧
    ∀ line, Listing.writeCommand i = some line → Listing.readLine line = some [i]

/-! ### Reset, the step and the invariant -/

/-- 10_state.md R23: right after the hardware reset `size` is 0, no cell has a value, nothing is known,
the buffer is neither oversized nor complete, and no `rd_addr` reads a valid byte. -/
def Obligations.ResetStateIsEmpty : Prop :=
  State.reset.size = 0 ∧ (∀ a, memRead1 State.reset a = none) ∧
  lenKnown State.reset = false ∧ typeKnown State.reset = false ∧
  isOversized State.reset = false ∧ isComplete State.reset = false ∧
  declaredLength State.reset = none ∧ declaredType State.reset = none ∧
  ∀ i r pop, (outputs (State.reset.present i) r pop).rdValid = false ∧
    (outputs (State.reset.present i) r pop).rdData = none

/-- 70_reset_and_hazards.md R140: a step in which `rst` is asserted empties the buffer whatever the
pre-state and the command word, consumes no byte and returns no status; its effect on the buffer is
that of the `RESET` command; held for several steps it keeps the framer empty. -/
def Obligations.HardwareResetOverridesCommand : Prop :=
  (∀ s : State, s.input.rst = true → ∃ t u, step s = .next t ∧ EmptyBuffer t ∧
    t.script = s.script.tail ∧ Shows t none false ∧ exec .reset s = .next u ∧ SameBuffer u t) ∧
  (∀ (n : Nat) (s : State), n ≤ s.script.length → (∀ i ∈ s.script.take n, i.rst = true) →
    ∃ t : State, Host.Core.run Sys2Proof.core n s = .next t ∧ (0 < n → EmptyBuffer t))

/-- The fetch of the model (20_memory.md R42, notes/assumptions/1.md): a step that does not assert `rst`
is the execution of the command its inputs decode to; a word placed for the coming step is the one it
decodes; with nothing scripted the command is `IDLE` and `rst` is not asserted. -/
def Obligations.StepRunsTheDecodedCommand : Prop :=
  (∀ s : State, s.input.rst = false → step s = exec (decode s.input.word) s) ∧
  (∀ (s : State) (w : Nat), w < 2048 →
    step (s.withFetchWord 16 w) = exec (decode (BitVec.ofNat 11 w)) (s.withFetchWord 16 w) ∧
    (s.withFetchWord 16 w).script.tail = s.script.tail ∧
    SameBuffer s (s.withFetchWord 16 w) ∧ (s.withFetchWord 16 w).out = s.out) ∧
  (∀ s : State, s.script = [] → step s = exec .idle s)

/-- 41_byte_admission.md R107: the step is total and non-blocking: for every state and every command
word it produces a post-state and outputs in the same step. -/
def Obligations.EveryStepGivesAStateAndOutputs : Prop :=
  (∀ s : State, ∃ t o, step s = .next t ∧ t.out = some o) ∧
  (∀ (i : Instr) (s : State), ∃ t o, exec i s = .next t ∧ t.out = some o) ∧
  (∀ (n : Nat) (s : State), ∃ t : State, Host.Core.run Sys2Proof.core n s = .next t)

/-- The reset state meets the invariant. -/
def Obligations.ResetMeetsBufferInv : Prop := BufferInv Config.hardware State.reset

/-- From every state in which the listed cells are exactly `0 .. size - 1` and `size <= N`, every step
gives such a state, whose buffer space is in canonical form (10_state.md section 2). -/
def Obligations.StepKeepsBufferInv : Prop :=
  ∀ s t : State, BufferInv Config.hardware s → step s = .next t →
    BufferInv Config.hardware t ∧ t.body.wf

/-- 10_state.md R13: `0 <= size <= N` in every state reachable from the reset state, whatever the
environment presents, and APPEND never leaves the range, for every capacity. -/
def Obligations.SizeNeverExceedsCapacity : Prop :=
  (∀ (inputs : List Inputs) (n : Nat), ∃ t : State,
    Host.Core.run Sys2Proof.core n { State.reset with script := inputs } = .next t ∧
      t.size ≤ Config.hardware.maxPacketSize) ∧
  (∀ (cfg : Config) (b : Byte) (s : State), BufferInv cfg s →
    BufferInv cfg (append cfg b s) ∧ BufferInv cfg (admitByte cfg b s).1)

/-- 10_state.md section 5 and 90_conflicts.md C7: the results are transient. No step depends on what the
output ports showed before it. -/
def Obligations.OutputsAreNotState : Prop :=
  ∀ (s : State) (o : Option Outputs), step { s with out := o } = step s

/-- 10_state.md section 2 (the list of R17): a step changes the buffer only through the hardware reset,
`RESET`, or a `POLL.BYTE`; every step uses up exactly its own inputs. -/
def Obligations.OnlyThreeEventsChangeTheBuffer : Prop :=
  ∀ s t : State, step s = .next t →
    t.script = s.script.tail ∧
    (¬ SameBuffer s t → s.input.rst = true ∨ decode s.input.word = .reset ∨
      ∃ d, decode s.input.word = .pollByte d ∧ isOversized s = false ∧
        SameBuffer (append Config.hardware d s) t)

/-- 10_state.md section 2 (R15, derived there): two states with the same `size`, the same bytes below it
and the same inputs to come show the same outputs and stay so. -/
def Obligations.EqualValidBytesAreIndistinguishable : Prop :=
  ∀ s t : State, s.size = t.size → (∀ a < s.size, memRead1 s a = memRead1 t a) →
    s.script = t.script →
    ∃ s' t', step s = .next s' ∧ step t = .next t' ∧ s'.out = t'.out ∧ s'.size = t'.size ∧
      (∀ a < s'.size, memRead1 s' a = memRead1 t' a) ∧ s'.script = t'.script

/-! ### The buffer space and the queries -/

/-- 20_memory.md section 3: a read after a write gives the written byte at its address and the old byte
everywhere else, and a write keeps the canonical form. -/
def Obligations.BufferSpaceReadsWhatWasWritten : Prop :=
  ∀ (m : Memory) (a : Nat) (v : Byte),
    (m.write a v).read a = some v ∧ (∀ b, b ≠ a → (m.write a v).read b = m.read b) ∧
      (m.wf → (m.write a v).wf)

/-- 30_encoding.md R54: `declared_length` is `body[0] ++ body[1]`, that is `body[0] * 256 + body[1]`, an
unsigned 16-bit value from 0 to 65535, defined only once `size >= 2`. -/
def Obligations.DeclaredLengthIsBigEndian : Prop :=
  (∀ s : State, s.size < 2 → declaredLength s = none) ∧
  (∀ (cfg : Config) (s : State), BufferInv cfg s → 2 ≤ s.size →
    ∃ (b0 b1 : Byte) (len : Length), s.body.read 0 = some b0 ∧ s.body.read 1 = some b1 ∧
      declaredLength s = some len ∧ len.extractLsb' 8 8 = b0 ∧ len.extractLsb' 0 8 = b1 ∧
      len.toNat = b0.toNat * 256 + b1.toNat ∧ len.toNat ≤ 65535)

/-- 30_encoding.md R55: `declared_type` is the third stored byte unchanged, defined only once
`size >= 3`, and no result and no later buffer depends on it: two buffers that differ in cell 2 alone
admit a byte with the same result, the same `size` and the same byte in every other cell, and cell 2 keeps
its byte in each. -/
def Obligations.DeclaredTypeIsTheThirdByte : Prop :=
  (∀ s : State, s.size < 3 → declaredType s = none) ∧
  (∀ (cfg : Config) (s : State), BufferInv cfg s → 3 ≤ s.size →
    ∃ b, s.body.read 2 = some b ∧ declaredType s = some b) ∧
  (∀ (cfg : Config) (s : State) (v b : Byte), 3 ≤ s.size →
    (admitByte cfg b { s with body := s.body.write 2 v }).2 = (admitByte cfg b s).2 ∧
    (admitByte cfg b { s with body := s.body.write 2 v }).1.size = (admitByte cfg b s).1.size ∧
    (∀ a, a ≠ 2 → (admitByte cfg b { s with body := s.body.write 2 v }).1.body.read a =
      (admitByte cfg b s).1.body.read a) ∧
    (admitByte cfg b { s with body := s.body.write 2 v }).1.body.read 2 = some v ∧
    (admitByte cfg b s).1.body.read 2 = s.body.read 2)

/-- 40_packet_buffer.md sections 1 and 5 (the formula and the corner cases of R72): false while the
length is unknown, else exactly `size > declared_length`, strictly; lengths 0 and 1 are oversized at
once; a length of `N` or more never is. -/
def Obligations.OversizedIsStrictlyGreater : Prop :=
  (∀ s : State, s.size < 2 → isOversized s = false) ∧
  (∀ (cfg : Config) (s : State) (len : Length), BufferInv cfg s → declaredLength s = some len →
    (isOversized s = true ↔ len.toNat < s.size) ∧
    (len.toNat < 2 → isOversized s = true) ∧
    (s.size = len.toNat → isOversized s = false) ∧
    (cfg.maxPacketSize ≤ len.toNat → isOversized s = false))

/-- 40_packet_buffer.md R75: below capacity APPEND stores the byte at cell `size`, leaves every other
cell alone and adds 1 to `size`; `len_known` becomes true exactly when `size` goes from 1 to 2 and
`type_known` when it goes from 2 to 3; and it happens only inside a `POLL.BYTE`. -/
def Obligations.AppendStoresOneCellBelowCapacity : Prop :=
  (∀ (cfg : Config) (b : Byte) (s : State), s.size < cfg.maxPacketSize →
    (append cfg b s).body.read s.size = some b ∧
    (∀ a, a ≠ s.size → (append cfg b s).body.read a = s.body.read a) ∧
    (append cfg b s).size = s.size + 1 ∧
    (append cfg b s).script = s.script ∧ (append cfg b s).out = s.out ∧
    (lenKnown s = false → (lenKnown (append cfg b s) = true ↔ s.size = 1)) ∧
    (typeKnown s = false → (typeKnown (append cfg b s) = true ↔ s.size = 2))) ∧
  (∀ s t : State, asksReset s.input = false → step s = .next t → ¬ SameBuffer s t →
    ∃ d, decode s.input.word = .pollByte d ∧ SameBuffer (append Config.hardware d s) t)

/-- 40_packet_buffer.md R76: at `size == N` APPEND changes nothing; the step still consumes its byte,
reports nothing of the drop, and classifies the unchanged state as usual. -/
def Obligations.AppendAtCapacityDropsTheByte : Prop :=
  (∀ (cfg : Config) (b : Byte) (s : State), s.size = cfg.maxPacketSize → append cfg b s = s) ∧
  (∀ (b : Byte) (s : State), s.size = Config.hardware.maxPacketSize → isOversized s = false →
    ∃ t, exec (.pollByte b) s = .next t ∧ SameBuffer s t ∧
      Shows t (some (if isComplete s then .valid else .reading)) true)

/-- 00_scope.md R2: the constant is 100000 (microseconds), and no operation, command, step or run of the
framer depends on it: every next state, with the outputs shown in it, is the same whatever its value. -/
def Obligations.InterPacketDelayHasNoEffect : Prop :=
  Config.hardware.minInterPacketDelay = 100000 ∧
  ∀ (cfg : Config) (delay : Nat) (b : Byte) (s : State),
    append { cfg with minInterPacketDelay := delay } b s = append cfg b s ∧
    admitByte { cfg with minInterPacketDelay := delay } b s = admitByte cfg b s ∧
    (∀ i : Instr, execAt { cfg with minInterPacketDelay := delay } i s = execAt cfg i s) ∧
    stepAt { cfg with minInterPacketDelay := delay } s = stepAt cfg s ∧
    ∀ n : Nat, Host.Core.run (coreAt { cfg with minInterPacketDelay := delay }) n s =
        Host.Core.run (coreAt cfg) n s ∧
      history n s { cfg with minInterPacketDelay := delay } = history n s cfg

/-- 00_scope.md section 4: `N = 256` lies in the admitted range and `size` needs 9 bits, for which 8
would not do (40_packet_buffer.md section 5). -/
def Obligations.SizeNeedsNineBits : Prop :=
  Config.hardware.maxPacketSize = 256 ∧ Config.hardware.Admitted ∧ Config.hardware.sizeWidth = 9 ∧
  ∀ cfg : Config, cfg.Admitted →
    cfg.maxPacketSize < 2 ^ cfg.sizeWidth ∧ 2 ^ (cfg.sizeWidth - 1) ≤ cfg.maxPacketSize

/-! ### The commands -/

/-- 40_packet_buffer.md R80: `IDLE` (`op = 0b00`, canonical word `0x000`) changes nothing, consumes no
byte and has no result. -/
def Obligations.IdleChangesNothing : Prop :=
  (∀ (avail : Bool) (data : Byte), decode (commandWord 0b00#2 avail data) = .idle) ∧
  encode .idle = 0x000#11 ∧
  ∀ s : State, ∃ t, exec .idle s = .next t ∧ SameBuffer s t ∧ t.script = s.script.tail ∧
    Shows t none false

/-- 41_byte_admission.md R91: `POLL.WAIT` returns `WAITING` in every state, changes nothing and consumes
nothing; any number of consecutive `POLL.WAIT` steps leaves the state as it was. -/
def Obligations.PollWaitReturnsWaiting : Prop :=
  (∀ data : Byte, decode (commandWord 0b01#2 false data) = .pollWait) ∧
  encode .pollWait = 0x200#11 ∧
  (∀ s : State, ∃ t, exec .pollWait s = .next t ∧ SameBuffer s t ∧ t.script = s.script.tail ∧
    Shows t (some .waiting) false) ∧
  (∀ (n : Nat) (s : State), n ≤ s.script.length →
    (∀ i ∈ s.script.take n, i.rst = false ∧ decode i.word = .pollWait) →
    ∃ t : State, Host.Core.run Sys2Proof.core n s = .next t ∧ SameBuffer s t ∧
      ∀ r ∈ history n s, r.output.result = some .waiting ∧ r.output.srcPop = false)

/-- 40_packet_buffer.md R78: `RESET` sets `size` to 0 and makes every cell undefined; nothing is known
afterwards; it consumes no byte and returns no status. -/
def Obligations.ResetCommandEmptiesTheBuffer : Prop :=
  (∀ (avail : Bool) (data : Byte), decode (commandWord 0b10#2 avail data) = .reset) ∧
  encode .reset = 0x400#11 ∧
  ∀ s : State, ∃ t, exec .reset s = .next t ∧ t.size = 0 ∧ (∀ a, t.body.read a = none) ∧
    t.script = s.script.tail ∧ Shows t none false ∧
    declaredLength t = none ∧ declaredType t = none ∧ lenKnown t = false ∧ typeKnown t = false ∧
    isOversized t = false ∧ isComplete t = false

/-- 40_packet_buffer.md R79: `RESET` has no precondition, is idempotent, and the framer never performs
it on its own: without one of the two resets `size` never falls. -/
def Obligations.ResetHasNoPrecondition : Prop :=
  (∀ s : State, ∃ t, exec .reset s = .next t ∧ EmptyBuffer t ∧ (EmptyBuffer s → SameBuffer s t)) ∧
  (∀ s t : State, asksReset s.input = false → step s = .next t → s.size ≤ t.size)

/-- 40_packet_buffer.md section 4, read as notes/assumptions/2.md says, which is the model's choice: a step
runs the reserved command (`op = 0b11`) as the hardware does, as `IDLE`, and the submission of a command
sequence that contains it is refused. -/
def Obligations.ReservedActsAsIdleAndIsRefused : Prop :=
  (∀ (avail : Bool) (data : Byte),
    ∃ ignored, decode (commandWord 0b11#2 avail data) = .reserved ignored) ∧
  (∀ (ignored : BitVec 9) (s : State), ∃ t, exec (.reserved ignored) s = .next t ∧ SameBuffer s t ∧
    t.script = s.script.tail ∧ Shows t none false ∧ exec .idle s = .next t) ∧
  (∀ (program : List Instr) (ignored : BitVec 9) (rdAddr : BitVec 8) (s : State),
    .reserved ignored ∈ program → submit (inputsOf program rdAddr) s = .refused .reservedCommand)

/-- 41_byte_admission.md R92: every `POLL.BYTE` step consumes its byte, whatever the state and whatever
the result, which is `READING`, `VALID` or `INVALID`. -/
def Obligations.PollByteAlwaysConsumes : Prop :=
  ∀ (d : Byte) (s : State), ∃ t r, exec (.pollByte d) s = .next t ∧ Shows t (some r) true ∧
    r ≠ .waiting ∧ t.script = s.script.tail

/-- 41_byte_admission.md R93: in an oversized pre-state `POLL.BYTE` returns `INVALID`, consumes the byte
and changes nothing. -/
def Obligations.PollByteRejectsWhenOversized : Prop :=
  ∀ (d : Byte) (s : State), isOversized s = true →
    ∃ t, exec (.pollByte d) s = .next t ∧ SameBuffer s t ∧ t.script = s.script.tail ∧
      Shows t (some .invalid) true ∧ lenKnown t = lenKnown s ∧ typeKnown t = typeKnown s ∧
      isOversized t = true ∧ isComplete t = isComplete s

/-- 41_byte_admission.md section 3: in a pre-state that is not oversized the byte is stored at cell `size`,
which grows by 1, when `size < N`, and is dropped when `size == N`, whether or not the length is known
and whether or not the packet was already complete; every other cell keeps its byte. That a `size` above
`N`, which no run reaches, drops the byte too is the model's choice (notes/assumptions/7.md). -/
def Obligations.PollByteAppendsWhenNotOversized : Prop :=
  ∀ (d : Byte) (s : State), isOversized s = false →
    ∃ t, exec (.pollByte d) s = .next t ∧ t.script = s.script.tail ∧
      (s.size < Config.hardware.maxPacketSize →
        t.size = s.size + 1 ∧ t.body.read s.size = some d ∧
          ∀ a, a ≠ s.size → t.body.read a = s.body.read a) ∧
      (Config.hardware.maxPacketSize ≤ s.size → SameBuffer s t)

/-- 41_byte_admission.md R95: after an admitted byte the result is `VALID` exactly when, in the
post-state, the length is known and `size` equals it; in every other case it is `READING`. -/
def Obligations.PollByteClassifiesThePostState : Prop :=
  ∀ (d : Byte) (s : State), isOversized s = false →
    ∃ t, exec (.pollByte d) s = .next t ∧
      ((∃ len, declaredLength t = some len ∧ t.size = len.toNat) → Shows t (some .valid) true) ∧
      ((∀ len, declaredLength t = some len → t.size ≠ len.toNat) → Shows t (some .reading) true)

/-- 41_byte_admission.md section 4 (the case table R96, derived there), for every admitted capacity. -/
def Obligations.PollByteCaseTable : Prop :=
  ∀ (cfg : Config) (b : Byte) (s : State), cfg.Admitted → BufferInv cfg s →
    (s.size = 0 →
      (admitByte cfg b s).1.size = 1 ∧ (admitByte cfg b s).1.body.read 0 = some b ∧
        (admitByte cfg b s).2 = .reading) ∧
    (s.size = 1 →
      (admitByte cfg b s).1.size = 2 ∧ (admitByte cfg b s).1.body.read 1 = some b ∧
        (admitByte cfg b s).2 =
          if s.body.read 0 = some 0x00#8 ∧ b = 0x02#8 then .valid else .reading) ∧
    ∀ len : Length, declaredLength s = some len →
      (s.size < cfg.maxPacketSize → len.toNat < s.size →
        admitByte cfg b s = (s, .invalid)) ∧
      (s.size < cfg.maxPacketSize → s.size ≤ len.toNat →
        (admitByte cfg b s).1.size = s.size + 1 ∧
        (admitByte cfg b s).1.body.read s.size = some b ∧
        (admitByte cfg b s).2 = if s.size + 1 = len.toNat then .valid else .reading) ∧
      (s.size = cfg.maxPacketSize → len.toNat < cfg.maxPacketSize →
        admitByte cfg b s = (s, .invalid)) ∧
      (s.size = cfg.maxPacketSize → len.toNat = cfg.maxPacketSize →
        admitByte cfg b s = (s, .valid)) ∧
      (s.size = cfg.maxPacketSize → cfg.maxPacketSize < len.toNat →
        admitByte cfg b s = (s, .reading))

/-- 60_exceptions.md section 3: within one `POLL` availability decides first, then oversize of the
pre-state, then capacity, then completion of the post-state. So an oversized full buffer reports
`INVALID`, a complete buffer is never `INVALID` on the next byte, and `WAITING` hides every other
condition. That a `size` above `N`, which no run reaches, counts as full is the model's choice
(notes/assumptions/7.md). -/
def Obligations.PollTestsInFixedOrder : Prop :=
  ∀ s : State, s.input.rst = false → s.input.op = 0b01#2 → ∃ t, step s = .next t ∧
    (s.input.srcAvail = false → SameBuffer s t ∧ Shows t (some .waiting) false) ∧
    (s.input.srcAvail = true → isOversized s = true →
      SameBuffer s t ∧ Shows t (some .invalid) true) ∧
    (s.input.srcAvail = true → isOversized s = false →
      Config.hardware.maxPacketSize ≤ s.size →
      SameBuffer s t ∧ Shows t (some (if isComplete t then .valid else .reading)) true) ∧
    (s.input.srcAvail = true → isOversized s = false →
      s.size < Config.hardware.maxPacketSize →
      t.size = s.size + 1 ∧ Shows t (some (if isComplete t then .valid else .reading)) true) ∧
    (s.input.srcAvail = true → s.size = Config.hardware.maxPacketSize →
      (∃ len, declaredLength s = some len ∧ len.toNat < Config.hardware.maxPacketSize) →
      Shows t (some .invalid) true) ∧
    (isComplete s = true → ¬ Shows t (some .invalid) true)

/-- 60_exceptions.md R128: a step that reports `INVALID` changes nothing in the framer, and consumed its
byte; the report is not early: the step that made the buffer oversized returned `READING`. -/
def Obligations.InvalidStepChangesNothing : Prop :=
  ∀ s t : State, step s = .next t →
    (∀ pop, Shows t (some .invalid) pop → SameBuffer s t ∧ pop = true) ∧
    (isOversized s = false → isOversized t = true → Shows t (some .reading) true)

/-- 60_exceptions.md section 1 (the exact cause in R121): `INVALID` is shown exactly in a `POLL.BYTE`
step, with `rst` not asserted, whose pre-state is oversized. -/
def Obligations.InvalidExactlyWhenPolledOversized : Prop :=
  ∀ s t : State, step s = .next t →
    ((∃ pop, Shows t (some .invalid) pop) ↔
      s.input.rst = false ∧ (∃ d, decode s.input.word = .pollByte d) ∧ isOversized s = true)

/-- 60_exceptions.md R123: implicit truncation. A `POLL.BYTE` at `size == N` that is not oversized has a
declared length of at least `N`; the byte is consumed and dropped, and the result is `VALID` when the
length is `N` and `READING` when it is larger. -/
def Obligations.TruncationIsSilent : Prop :=
  ∀ (d : Byte) (s : State), BufferInv Config.hardware s →
    s.size = Config.hardware.maxPacketSize → isOversized s = false →
    ∃ t len, exec (.pollByte d) s = .next t ∧ declaredLength s = some len ∧
      Config.hardware.maxPacketSize ≤ len.toNat ∧ SameBuffer s t ∧
      (len.toNat = Config.hardware.maxPacketSize → Shows t (some .valid) true) ∧
      (Config.hardware.maxPacketSize < len.toNat → Shows t (some .reading) true)

/-! ### The ports -/

/-- 30_encoding.md R53: `status_valid = 1` exactly in a step whose command is `POLL` and in which `rst`
is not asserted, and only then does a step have a result; in every other step the port `status` holds
`0b00`. 30_encoding.md R52: in a `POLL` step the port holds the number of its result, 0 for `WAITING` (no
byte was available; nothing changed), 1 for `READING` (a byte was consumed; the packet is not complete), 2
for `VALID` (a byte was consumed and stored, or dropped at saturation; `size == declared_length`) and 3 for
`INVALID` (a byte was consumed and discarded; the buffer was already oversized). The numbers are the
spec's own decision (92_eei_decisions.md D2). -/
def Obligations.StatusOnlyInPollSteps : Prop :=
  ∀ (s t : State) (o : Outputs) (p : Pins), step s = .next t → t.out = some o → o.Drives p →
    (p.statusValid = true ↔ s.input.rst = false ∧ s.input.op = 0b01#2) ∧
    (o.result.isSome = true ↔ s.input.rst = false ∧ s.input.op = 0b01#2) ∧
    (¬ (s.input.rst = false ∧ s.input.op = 0b01#2) → p.status = 0b00#2 ∧ p.statusValid = false) ∧
    (s.input.rst = false → s.input.op = 0b01#2 →
      (p.status = 0b00#2 ↔ o.result = some .waiting) ∧
      (p.status = 0b01#2 ↔ o.result = some .reading) ∧
      (p.status = 0b10#2 ↔ o.result = some .valid) ∧
      (p.status = 0b11#2 ↔ o.result = some .invalid)) ∧
    (o.result = some .waiting → s.input.srcAvail = false ∧ o.srcPop = false ∧ SameBuffer s t) ∧
    (o.result = some .reading → o.srcPop = true ∧
      SameBuffer (append Config.hardware s.input.srcData s) t ∧ isComplete t = false) ∧
    (o.result = some .valid → o.srcPop = true ∧
      SameBuffer (append Config.hardware s.input.srcData s) t ∧
      ∃ len, declaredLength t = some len ∧ t.size = len.toNat) ∧
    (o.result = some .invalid → o.srcPop = true ∧ SameBuffer s t ∧ isOversized s = true)

/-- 10_state.md section 6 (the table of R22): every step shows its pre-state, `src_pop = 1` exactly in a
`POLL.BYTE` step, and in every reachable state some pin levels carry these outputs, so that `size` fits
its 9 bits. That a step which asserts `rst` shows its pre-state too is the model's reading of the table
(notes/assumptions/11.md). -/
def Obligations.OutputsShowThePreState : Prop :=
  ∀ s t : State, step s = .next t → ∃ o, t.out = some o ∧
    o.size = s.size ∧ (o.lenKnown = true ↔ 2 ≤ s.size) ∧ o.dlen = declaredLength s ∧
    (o.typeKnown = true ↔ 3 ≤ s.size) ∧ o.dtype = declaredType s ∧ o.oversized = isOversized s ∧
    (o.srcPop = true ↔
      s.input.rst = false ∧ s.input.op = 0b01#2 ∧ s.input.srcAvail = true) ∧
    (BufferInv Config.hardware s → (∃ p, o.Drives p) ∧
      (o.lenKnown = o.dlen.isSome) ∧ (o.typeKnown = o.dtype.isSome))

/-- 20_memory.md R41: the read port shows `rd_valid = (rd_addr < size)` and, when valid, the byte of the
cell, both from the pre-state; a read has no side effect: the buffer, the result and the bytes consumed
do not depend on `rd_addr`. -/
def Obligations.ReadPortShowsThePreStateCell : Prop :=
  (∀ (s t : State) (o : Outputs), step s = .next t → t.out = some o →
    (o.rdValid = true ↔ s.input.rdAddr.toNat < s.size) ∧
    (o.rdValid = false → o.rdData = none) ∧
    (BufferInv Config.hardware s → o.rdValid = true →
      ∃ b, s.body.read s.input.rdAddr.toNat = some b ∧ o.rdData = some b)) ∧
  (∀ (s : State) (rd : BitVec 8), ∃ t u, step s = .next t ∧
    step (s.present { s.input with rdAddr := rd }) = .next u ∧ SameBuffer t u ∧
    u.script = t.script ∧ u.out.map Outputs.result = t.out.map Outputs.result ∧
    u.out.map Outputs.srcPop = t.out.map Outputs.srcPop)

/-! ### Phases and runs -/

/-- 41_byte_admission.md section 5 (R102, derived there): the phases are the predicates of `size` and the
declared length, and `POLL.BYTE` moves between them as the table says; the other commands keep the
phase and `RESET` goes to `HEADER`. -/
def Obligations.PhaseTransitions : Prop :=
  ∀ s : State, BufferInv Config.hardware s →
    (phase s = .header ↔ s.size < 2) ∧
    (phase s = .complete ↔ isComplete s = true) ∧
    (phase s = .oversized ↔ isOversized s = true) ∧
    (∀ i t, exec i s = .next t → i = .pollWait ∨ i = .idle ∨ (∃ x, i = .reserved x) →
      phase t = phase s) ∧
    (∃ t, exec .reset s = .next t ∧ phase t = .header ∧ t.size = 0) ∧
    ∀ d : Byte, ∃ t, exec (.pollByte d) s = .next t ∧
      (s.size = 0 → phase t = .header ∧ t.size = 1 ∧ Shows t (some .reading) true) ∧
      (s.size = 1 → ∃ hi, s.body.read 0 = some hi ∧
        (2 < 256 * hi.toNat + d.toNat →
          phase t = .assembling ∧ Shows t (some .reading) true) ∧
        (256 * hi.toNat + d.toNat = 2 → phase t = .complete ∧ Shows t (some .valid) true) ∧
        (256 * hi.toNat + d.toNat < 2 →
          phase t = .oversized ∧ Shows t (some .reading) true)) ∧
      (phase s = .assembling → ∃ len, declaredLength s = some len ∧
        (s.size + 1 < len.toNat ∨ s.size = Config.hardware.maxPacketSize →
          phase t = .assembling ∧ Shows t (some .reading) true) ∧
        (s.size + 1 = len.toNat → s.size ≠ Config.hardware.maxPacketSize →
          phase t = .complete ∧ Shows t (some .valid) true)) ∧
      (phase s = .complete →
        (s.size < Config.hardware.maxPacketSize →
          phase t = .oversized ∧ Shows t (some .reading) true) ∧
        (s.size = Config.hardware.maxPacketSize →
          phase t = .complete ∧ Shows t (some .valid) true)) ∧
      (phase s = .oversized → phase t = .oversized ∧ Shows t (some .invalid) true)

/-- 40_packet_buffer.md section 1 and 41_byte_admission.md section 4 (R74 and R97, derived there): while
no reset is asked for, `size` never falls and grows by at most one a step, every byte of the valid
bytes stays, and a known length or type stays. -/
def Obligations.ValidBytesOnlyGrow : Prop :=
  ∀ (n : Nat) (s t : State), NoReset n s → Host.Core.run Sys2Proof.core n s = .next t →
    s.size ≤ t.size ∧ t.size ≤ s.size + n ∧
    (∀ a < s.size, memRead1 t a = memRead1 s a) ∧
    (∀ len, declaredLength s = some len → declaredLength t = some len) ∧
    (∀ type, declaredType s = some type → declaredType t = some type)

/-- 41_byte_admission.md section 4 (R98, derived there): an oversized buffer stays as it is for any
number of steps without a reset; every `POLL.BYTE` returns `INVALID` and every `POLL.WAIT` returns
`WAITING`. -/
def Obligations.OversizedIsSticky : Prop :=
  ∀ (n : Nat) (s : State), isOversized s = true → NoReset n s →
    ∃ t : State, Host.Core.run Sys2Proof.core n s = .next t ∧ SameBuffer s t ∧ isOversized t = true ∧
      ∀ r ∈ history n s, r.output.oversized = true ∧
        (decode r.input.word = .pollByte r.input.srcData →
          r.output.result = some .invalid ∧ r.output.srcPop = true) ∧
        (decode r.input.word = .pollWait → r.output.result = some .waiting)

/-- 41_byte_admission.md R99: with fewer than 2 bytes consumed since the buffer was empty the length is
unknown and every result is `READING` or `WAITING`; the first `POLL.BYTE` returns `READING`, `VALID`
can occur at the second at the earliest and `INVALID` at the third at the earliest. -/
def Obligations.EarliestResults : Prop :=
  ∀ (n : Nat) (s t : State), EmptyBuffer s → NoReset n s →
    Host.Core.run Sys2Proof.core n s = .next t →
    ((consumedBytes (history n s)).length < 2 → declaredLength t = none ∧
      ∀ r ∈ history n s, ∀ x, r.output.result = some x → x = .reading ∨ x = .waiting) ∧
    (∀ x, (byteResults (history n s))[0]? = some x → x = .reading) ∧
    (∀ x, (byteResults (history n s))[1]? = some x → x ≠ .invalid)

/-- 41_byte_admission.md section 4 (R100, derived there): when a step of a run that began with an empty
buffer returns `VALID`, `2 <= size == declared_length <= N`, and the valid bytes are the bytes stored
since then in arrival order; they are all the bytes consumed if none was rejected or dropped, and so at
the first `VALID`. -/
def Obligations.ValidMeansTheWholePacket : Prop :=
  ∀ (n : Nat) (s t : State), EmptyBuffer s → NoReset (n + 1) s →
    Host.Core.run Sys2Proof.core (n + 1) s = .next t → Shows t (some .valid) true →
    (∃ len, declaredLength t = some len ∧ t.size = len.toNat) ∧ 2 ≤ t.size ∧
    t.size ≤ Config.hardware.maxPacketSize ∧
    validBytes t = storedBytes Config.hardware (history (n + 1) s) ∧
    ((∀ r ∈ history (n + 1) s, r.rejects = false ∧ r.drops Config.hardware = false) →
      validBytes t = consumedBytes (history (n + 1) s)) ∧
    ((∀ r ∈ history n s, r.output.result ≠ some .valid) →
      validBytes t = consumedBytes (history (n + 1) s))

/-- 41_byte_admission.md section 4 (R101, derived there): from an empty buffer and without a reset, the
results of the `POLL.BYTE` steps and the `size` after them are those of the table, whatever `POLL.WAIT`,
`IDLE` and reserved steps stand between; those return `WAITING` or nothing. -/
def Obligations.StreamTrajectories : Prop :=
  ∀ (n : Nat) (s : State) (len : Nat), EmptyBuffer s → NoReset n s →
    streamLength (consumedBytes (history n s)) = some len →
    ∃ t : State, Host.Core.run Sys2Proof.core n s = .next t ∧
      t.size = trajectorySize len (consumedBytes (history n s)).length ∧
      byteResults (history n s) =
        (List.range (consumedBytes (history n s)).length).map (fun j => trajectoryResult len (j + 1)) ∧
      ∀ r ∈ history n s, r.output.srcPop = false →
        r.output.result = if polls r.input then some .waiting else none

/-- 41_byte_admission.md section 4 (R106, derived there): since the buffer was empty, `size` is the number
of bytes consumed less those rejected and those dropped; a rejection needs an oversized buffer and a
drop a declared length of at least `N`. -/
def Obligations.EveryConsumedByteIsAccountedFor : Prop :=
  ∀ (n : Nat) (s t : State), EmptyBuffer s → NoReset n s →
    Host.Core.run Sys2Proof.core n s = .next t →
    t.size + (history n s).countP Record.rejects +
        (history n s).countP (Record.drops Config.hardware) =
      (consumedBytes (history n s)).length ∧
    (0 < (history n s).countP Record.rejects → isOversized t = true) ∧
    (0 < (history n s).countP (Record.drops Config.hardware) →
      ∃ len, declaredLength t = some len ∧ Config.hardware.maxPacketSize ≤ len.toNat)

/-! ### The environment -/

/-- 70_reset_and_hazards.md section 3 (R145): a caller that never polls while `oversized` is 1 never
draws `INVALID`, from any state. -/
def Obligations.HeedingOversizedAvoidsInvalid : Prop :=
  ∀ (n : Nat) (s : State), heedsOversized (history n s) = true →
    ∀ r ∈ history n s, r.output.result ≠ some .invalid

/-- 70_reset_and_hazards.md sections 3 and 5 (R143, R146, R147): from an empty buffer, a caller that
resets after every terminal result and stops polling once the declared length exceeds `N` loses no byte
to truncation. -/
def Obligations.DisciplinedCallerDropsNothing : Prop :=
  ∀ (n : Nat) (s : State), EmptyBuffer s →
    resetsAfterTerminal false (history n s) = true →
    checksLength Config.hardware (history n s) = true →
    ∀ r ∈ history n s, r.drops Config.hardware = false

/-- 93_implementation_defined.md section 1 (U6): from an empty buffer, a caller that resets after every
terminal result never polls a byte with `size == declared_length`, so on such runs the strict oversize
test and the non-strict one agree. -/
def Obligations.OversizeTestsAgreeUnderDiscipline : Prop :=
  ∀ (n : Nat) (s : State), EmptyBuffer s →
    resetsAfterTerminal false (history n s) = true →
    ∀ r ∈ history n s, r.output.srcPop = true → ∀ len, r.output.dlen = some len →
      r.output.size ≠ len.toNat ∧
      r.output.oversized = decide (len.toNat ≤ r.output.size)

/-- 70_reset_and_hazards.md section 3, in the model's reading of it: `submit` refuses exactly the sequences
of inputs in which the reserved command is issued, and a sequence it accepts never issues one. That a
reserved word presented while `rst` is asserted is not issued (notes/assumptions/2.md), and that nothing
but `IDLE` is issued beyond the script's end (notes/assumptions/1.md), are the model's choices. -/
def Obligations.SubmittedSequencesAreLegal : Prop :=
  ∀ (inputs : List Inputs) (s : State), s.script = [] →
    (submit inputs s = .refused .reservedCommand ↔
      ∃ i ∈ inputs, i.rst = false ∧ ∃ x, decode i.word = .reserved x) ∧
    ∀ t, submit inputs s = .next t → t.script = inputs ∧ SameBuffer s t ∧ t.out = s.out ∧
      ∀ n, legalCommands (history n t) = true

/-- 20_memory.md R38 and 70_reset_and_hazards.md section 4: with a source of waiting bytes, a step removes
at most one byte; it removes the head, and does so exactly when the caller polls, `rst` is not asserted
and a byte is available; that byte is the operand. -/
def Obligations.OnePollTakesAtMostOneByte : Prop :=
  ∀ (e : Environment) (c : Closed), ∃ d, Closed.step e c = .next d ∧
    ((e.rst = false ∧ e.op = 0b01#2 ∧ e.ready = true ∧ c.source ≠ []) →
      ∃ b, c.source = b :: d.source ∧ decode (e.inputs c.source).word = .pollByte b) ∧
    (¬ (e.rst = false ∧ e.op = 0b01#2 ∧ e.ready = true ∧ c.source ≠ []) → d.source = c.source)

/-- 20_memory.md section 6 (R40): bytes are stored in the order the source yields them, with no gaps: in a
run that began with an empty buffer, that a source of the bytes `src` serves, and that asks for no reset,
the valid bytes are the first `size` bytes of `src`. -/
def Obligations.StoredBytesAreTheStream : Prop :=
  ∀ (n : Nat) (s t : State) (src : Source), EmptyBuffer s → NoReset n s →
    sourceServes src (history n s) = true → Host.Core.run Sys2Proof.core n s = .next t →
    validBytes t = src.take t.size ∧
      ∀ a < t.size, ∃ b, src[a]? = some b ∧ t.body.read a = some b

/-- 20_memory.md section 6, 30_encoding.md section 6 and 95_test_vectors.md S7: a packet of any type and
payload whose total length is at most `N`, fed to an empty buffer, returns `READING` for every byte but
the last and `VALID` for the last, and the stored bytes are the packet, its length first. -/
def Obligations.PacketRoundTrip : Prop :=
  ∀ (s : State) (type : Byte) (payload : List Byte) (rdAddr : BitVec 8), EmptyBuffer s →
    payload.length + 3 ≤ Config.hardware.maxPacketSize →
    s.script = inputsOf (Listing.expand (.packet type payload)) rdAddr →
    ∃ (t : State) (hi lo : Byte), Host.Core.run Sys2Proof.core (payload.length + 3) s = .next t ∧
      validBytes t = hi :: lo :: type :: payload ∧
      256 * hi.toNat + lo.toNat = payload.length + 3 ∧
      t.size = payload.length + 3 ∧ declaredLength t = some (hi ++ lo) ∧
      declaredType t = some type ∧
      byteResults (history (payload.length + 3) s) =
        List.replicate (payload.length + 2) .reading ++ [.valid]

/-! ### The capacity as an argument -/

/-- 00_scope.md section 4: the capacity is an argument of the machine, with default 256 and range 3 to 65535
(the range is the spec's own decision, 92_eei_decisions.md D9); this hardware is the machine at the default;
at every admitted capacity every run from the reset state goes on and `size` never exceeds the capacity. -/
def Obligations.CapacityIsAnArgument : Prop :=
  Config.hardware.maxPacketSize = 256 ∧
  (∀ cfg : Config, cfg.Admitted ↔ 3 ≤ cfg.maxPacketSize ∧ cfg.maxPacketSize ≤ 65535) ∧
  (∀ (i : Instr) (s : State), exec i s = execAt Config.hardware i s) ∧
  (∀ s : State, step s = stepAt Config.hardware s) ∧
  (∀ (n : Nat) (s : State),
    Host.Core.run Sys2Proof.core n s = Host.Core.run coreAt n s) ∧
  (∀ cfg : Config, cfg.Admitted → ∀ (inputs : List Inputs) (n : Nat), ∃ t : State,
    Host.Core.run (coreAt cfg) n { State.reset with script := inputs } = .next t ∧
      t.size ≤ cfg.maxPacketSize)

/-- 10_state.md section 2 and 40_packet_buffer.md section 5, at every capacity: from every state in which
the listed cells are exactly `0 .. size - 1` and `size <= N`, every step gives such a state, in canonical
form. -/
def Obligations.StepAtEveryCapacityKeepsBufferInv : Prop :=
  ∀ (cfg : Config) (s t : State), BufferInv cfg s → stepAt cfg s = .next t →
    BufferInv cfg t ∧ t.body.wf

/-- 41_byte_admission.md section 3, at every capacity: `POLL.BYTE` consumes its byte and leaves the buffer
and the result that the admission of the byte at that capacity gives; below capacity, in a pre-state that
is not oversized, the byte is stored at cell `size`; at capacity nothing changes. No other command depends
on the capacity. -/
def Obligations.PollByteAtEveryCapacity : Prop :=
  (∀ (cfg : Config) (d : Byte) (s : State), ∃ t, execAt cfg (.pollByte d) s = .next t ∧
    t.script = s.script.tail ∧ SameBuffer (admitByte cfg d s).1 t ∧
    Shows t (some (admitByte cfg d s).2) true ∧
    (isOversized s = false → s.size < cfg.maxPacketSize →
      t.size = s.size + 1 ∧ t.body.read s.size = some d ∧
        ∀ a, a ≠ s.size → t.body.read a = s.body.read a) ∧
    (s.size = cfg.maxPacketSize → SameBuffer s t)) ∧
  (∀ (cfg : Config) (i : Instr) (s : State), (∀ d, i ≠ .pollByte d) → execAt cfg i s = exec i s)
end

