-- ==== Sys2Proof/Laws/Memory.lean ====
section
/-! SUPPORT. The laws of the buffer space: read after write, the other cells, the canonical form. -/

namespace Sys2Proof.Machine

@[simp] theorem Memory.read_nil (a : Nat) : Memory.read [] a = none := rfl

/-- A read after a write gives the written byte at its address and leaves every other address alone. -/
theorem Memory.read_write (m : Memory) (a : Nat) (v : Byte) (b : Nat) :
    (m.write a v).read b = if b = a then some v else m.read b := by
  induction m with
  | nil => simp [Memory.write, Memory.read]
  | cons c rest ih =>
    obtain ⟨k, w⟩ := c
    simp only [Memory.write]
    split
    · simp [Memory.read]
    · split
      · next h => subst h; by_cases hb : b = a <;> simp [Memory.read, hb]
      · next h => by_cases hb : b = k <;> simp_all [Memory.read, eq_comm]

/-- The addresses after a write are the old ones and the written one. -/
theorem Memory.mem_write {m : Memory} {a : Nat} {v : Byte} {b : Nat} :
    b ∈ (m.write a v).map Prod.fst ↔ b = a ∨ b ∈ m.map Prod.fst := by
  induction m with
  | nil => simp [Memory.write]
  | cons c rest ih =>
    obtain ⟨k, w⟩ := c
    simp only [Memory.write]
    split
    · simp
    · split
      · next h => subst h; simp
      · rw [List.map_cons, List.mem_cons, ih, List.map_cons, List.mem_cons]
        tauto

/-- A write keeps the canonical form. -/
theorem Memory.write_wf {m : Memory} (h : m.wf) (a : Nat) (v : Byte) : (m.write a v).wf := by
  induction m with
  | nil => simp [Memory.write, Memory.wf]
  | cons c rest ih =>
    obtain ⟨k, w⟩ := c
    simp only [Memory.wf, List.map_cons, List.pairwise_cons] at h
    simp only [Memory.write]
    split
    · next hlt =>
      simp only [Memory.wf, List.map_cons, List.pairwise_cons, List.mem_cons]
      refine ⟨?_, h⟩
      rintro b (rfl | hb)
      · exact hlt
      · exact hlt.trans (h.1 b hb)
    · split
      · next hne heq => subst heq; simpa [Memory.wf] using h
      · next hlt hne =>
        simp only [Memory.wf, List.map_cons, List.pairwise_cons]
        refine ⟨fun b hb => ?_, ih h.2⟩
        rcases Memory.mem_write.mp hb with rfl | hb
        · omega
        · exact h.1 b hb

/-- Writing above every listed address puts the cell last. -/
theorem Memory.write_last {m : Memory} {a : Nat} (h : ∀ b ∈ m.map Prod.fst, b < a) (v : Byte) :
    m.write a v = m ++ [(a, v)] := by
  induction m with
  | nil => rfl
  | cons c rest ih =>
    obtain ⟨k, w⟩ := c
    have hk : k < a := h k (by simp)
    simp only [Memory.write, if_neg (Nat.lt_asymm hk), if_neg (Nat.ne_of_gt hk), List.cons_append]
    rw [ih fun b hb => h b (by simp only [List.map_cons, List.mem_cons]; exact .inr hb)]

/-- A listed address has a value. -/
theorem Memory.read_isSome {m : Memory} {a : Nat} (h : a ∈ m.map Prod.fst) :
    ∃ v, m.read a = some v := by
  induction m with
  | nil => simp at h
  | cons c rest ih =>
    obtain ⟨k, w⟩ := c
    by_cases ha : a = k
    · exact ⟨w, by simp [Memory.read, ha]⟩
    · simp only [List.map_cons, List.mem_cons, ha, false_or] at h
      simpa [Memory.read, ha] using ih h

end Sys2Proof.Machine
end

