-- ==== Sys2Proof/Laws/State.lean ====
section
/-! SUPPORT. One lemma per field per update of the state. -/

namespace Sys2Proof.Machine

variable (s t : State) (i : Inputs) (r : Option Status) (pop : Bool)

@[simp] theorem reset_body : State.reset.body = [] := rfl
@[simp] theorem reset_size : State.reset.size = 0 := rfl
@[simp] theorem reset_script : State.reset.script = [] := rfl
@[simp] theorem reset_out : State.reset.out = none := rfl

@[simp] theorem present_body : (s.present i).body = s.body := rfl
@[simp] theorem present_size : (s.present i).size = s.size := rfl
@[simp] theorem present_script : (s.present i).script = i :: s.script.tail := rfl
@[simp] theorem present_out : (s.present i).out = s.out := rfl
@[simp] theorem present_input : (s.present i).input = i := rfl

@[simp] theorem emptyBuffer_body : (emptyBuffer s).body = [] := rfl
@[simp] theorem emptyBuffer_size : (emptyBuffer s).size = 0 := rfl
@[simp] theorem emptyBuffer_script : (emptyBuffer s).script = s.script := rfl
@[simp] theorem emptyBuffer_out : (emptyBuffer s).out = s.out := rfl

@[simp] theorem finish_body : (finish s r pop t).body = t.body := rfl
@[simp] theorem finish_size : (finish s r pop t).size = t.size := rfl
@[simp] theorem finish_script : (finish s r pop t).script = s.script.tail := rfl
@[simp] theorem finish_out : (finish s r pop t).out = some (outputs s r pop) := rfl

@[simp] theorem hardwareReset_body : (hardwareReset s).body = [] := rfl
@[simp] theorem hardwareReset_size : (hardwareReset s).size = 0 := rfl
@[simp] theorem hardwareReset_script : (hardwareReset s).script = s.script.tail := rfl
@[simp] theorem hardwareReset_out : (hardwareReset s).out = some (outputs s none false) := rfl

@[simp] theorem outputs_result : (outputs s r pop).result = r := rfl
@[simp] theorem outputs_srcPop : (outputs s r pop).srcPop = pop := rfl
@[simp] theorem outputs_size : (outputs s r pop).size = s.size := rfl
@[simp] theorem outputs_lenKnown : (outputs s r pop).lenKnown = lenKnown s := rfl
@[simp] theorem outputs_dlen : (outputs s r pop).dlen = declaredLength s := rfl
@[simp] theorem outputs_typeKnown : (outputs s r pop).typeKnown = typeKnown s := rfl
@[simp] theorem outputs_dtype : (outputs s r pop).dtype = declaredType s := rfl
@[simp] theorem outputs_oversized : (outputs s r pop).oversized = isOversized s := rfl
@[simp] theorem outputs_rdValid :
    (outputs s r pop).rdValid = decide (s.input.rdAddr.toNat < s.size) := rfl
@[simp] theorem outputs_rdData :
    (outputs s r pop).rdData = memRead1 s s.input.rdAddr.toNat := rfl

end Sys2Proof.Machine
end

