-- ==== Sys2Proof/Laws/Buffer.lean ====
section
/-! SUPPORT. What APPEND and the admission of a byte do, said once, and that they keep the invariant. -/

namespace Sys2Proof.Machine

open Sys2Proof.Safety

/-- APPEND below capacity. -/
theorem append_below {cfg : Config} {s : State} (h : s.size < cfg.maxPacketSize) (b : Byte) :
    append cfg b s = { s with body := s.body.write s.size b, size := s.size + 1 } := by
  simp [append, h]

/-- APPEND at capacity does nothing. -/
theorem append_full {cfg : Config} {s : State} (h : cfg.maxPacketSize ≤ s.size) (b : Byte) :
    append cfg b s = s := by
  simp [append, Nat.not_lt.mpr h]

/-- APPEND touches the buffer only. -/
@[simp] theorem append_script (cfg : Config) (b : Byte) (s : State) :
    (append cfg b s).script = s.script := by
  unfold append; split <;> rfl

/-- Cells of the old valid prefix keep their bytes, and the prefix grows by at most one cell. -/
theorem append_grows (cfg : Config) (b : Byte) (s : State) :
    s.size ≤ (append cfg b s).size ∧ (append cfg b s).size ≤ s.size + 1 ∧
      ∀ a < s.size, memRead1 (append cfg b s) a = memRead1 s a := by
  unfold append
  split
  · refine ⟨by simp, by simp, fun a ha => ?_⟩
    simp only [memRead1, Memory.read_write]
    rw [if_pos (by omega), if_neg (by omega), if_pos ha]
  · simp

/-- Everything the admission of a byte can do (41_byte_admission.md R93 to R95). -/
theorem admitByte_cases (cfg : Config) (b : Byte) (s : State) :
    (isOversized s = true ∧ admitByte cfg b s = (s, .invalid)) ∨
    (isOversized s = false ∧ isComplete (append cfg b s) = true ∧
      admitByte cfg b s = (append cfg b s, .valid)) ∨
    (isOversized s = false ∧ isComplete (append cfg b s) = false ∧
      admitByte cfg b s = (append cfg b s, .reading)) := by
  unfold admitByte
  cases isOversized s <;> cases isComplete (append cfg b s) <;> simp

/-- The Packet Buffer after an admission: unchanged when oversized, appended to otherwise. -/
theorem admitByte_state (cfg : Config) (b : Byte) (s : State) :
    (admitByte cfg b s).1 = if isOversized s then s else append cfg b s := by
  unfold admitByte; cases isOversized s <;> cases isComplete (append cfg b s) <;> rfl

/-- The invariant speaks of `body` and `size` only. -/
theorem bufferInv_of_eq {cfg : Config} {s t : State} (h : BufferInv cfg s) (hb : t.body = s.body)
    (hs : t.size = s.size) : BufferInv cfg t := by
  simpa [BufferInv, hb, hs] using h

/-- The invariant gives the canonical form. -/
theorem bufferInv_wf {cfg : Config} {s : State} (h : BufferInv cfg s) : s.body.wf := by
  rw [Memory.wf, h.1]
  exact List.pairwise_lt_range

/-- The empty buffer meets the invariant. -/
theorem bufferInv_empty {cfg : Config} {s : State} (h : EmptyBuffer s) : BufferInv cfg s := by
  simp [BufferInv, h.1, h.2]

/-- In the invariant, APPEND below capacity puts the byte last. -/
theorem bufferInv_write {cfg : Config} {s : State} (h : BufferInv cfg s) (b : Byte) :
    s.body.write s.size b = s.body ++ [(s.size, b)] :=
  Memory.write_last (fun a ha => by rw [h.1] at ha; exact List.mem_range.mp ha) b

/-- APPEND keeps the invariant. -/
theorem bufferInv_append {cfg : Config} {s : State} (h : BufferInv cfg s) (b : Byte) :
    BufferInv cfg (append cfg b s) := by
  rcases Nat.lt_or_ge s.size cfg.maxPacketSize with hlt | hge
  · rw [append_below hlt]
    refine ⟨?_, hlt⟩
    simp only [bufferInv_write h, List.map_append, h.1, List.map_cons, List.map_nil]
    exact List.range_succ.symm
  · rwa [append_full hge]

/-- The admission of a byte keeps the invariant. -/
theorem bufferInv_admitByte {cfg : Config} {s : State} (h : BufferInv cfg s) (b : Byte) :
    BufferInv cfg (admitByte cfg b s).1 := by
  rw [admitByte_state]
  split
  · exact h
  · exact bufferInv_append h b

/-- In the invariant, every cell below `size` has a value. -/
theorem bufferInv_memRead1 {cfg : Config} {s : State} (h : BufferInv cfg s) {a : Nat}
    (ha : a < s.size) : ∃ v, memRead1 s a = some v := by
  obtain ⟨v, hv⟩ :=
    Memory.read_isSome (m := s.body) (a := a) (by rw [h.1]; exact List.mem_range.mpr ha)
  exact ⟨v, by simp [memRead1, ha, hv]⟩

/-- In the invariant, the length is known as soon as two bytes are stored. -/
theorem bufferInv_declaredLength {cfg : Config} {s : State} (h : BufferInv cfg s)
    (h2 : 2 ≤ s.size) :
    ∃ hi lo, memRead1 s 0 = some hi ∧ memRead1 s 1 = some lo ∧
      declaredLength s = some (hi ++ lo) := by
  obtain ⟨hi, h0⟩ := bufferInv_memRead1 h (a := 0) (by omega)
  obtain ⟨lo, h1⟩ := bufferInv_memRead1 h (a := 1) (by omega)
  exact ⟨hi, lo, h0, h1, by simp [declaredLength, Nat.not_lt.mpr h2, memRead2, h0, h1]⟩

/-- The length is unknown while fewer than two bytes are stored. -/
theorem declaredLength_of_lt {s : State} (h : s.size < 2) : declaredLength s = none := by
  simp [declaredLength, h]

/-- A known length means two stored bytes. -/
theorem two_le_of_declaredLength {s : State} {len : Length} (h : declaredLength s = some len) :
    2 ≤ s.size := by
  by_contra hc
  rw [declaredLength_of_lt (by omega)] at h
  cases h

/-- The oversize test as a proposition. -/
theorem isOversized_iff (s : State) :
    isOversized s = true ↔ ∃ len, declaredLength s = some len ∧ len.toNat < s.size := by
  unfold isOversized; cases declaredLength s <;> simp

/-- Completeness as a proposition. -/
theorem isComplete_iff (s : State) :
    isComplete s = true ↔ ∃ len, declaredLength s = some len ∧ s.size = len.toNat := by
  unfold isComplete; cases declaredLength s <;> simp

/-- A complete buffer is not oversized. -/
theorem not_isOversized_of_isComplete {s : State} (h : isComplete s = true) :
    isOversized s = false := by
  obtain ⟨len, hd, he⟩ := (isComplete_iff s).mp h
  simp [isOversized, hd, he]

/-- APPEND keeps a known length (40_packet_buffer.md R74). -/
theorem declaredLength_append {cfg : Config} {b : Byte} {s : State} (h : 2 ≤ s.size) :
    declaredLength (append cfg b s) = declaredLength s := by
  obtain ⟨hg, -, hm⟩ := append_grows cfg b s
  simp only [declaredLength, memRead2]
  rw [if_neg (by omega), if_neg (by omega), hm _ (by omega), hm _ (by omega)]

/-- The header values and the predicates depend on the Packet Buffer alone. -/
theorem declaredLength_congr {s t : State} (h : SameBuffer s t) :
    declaredLength t = declaredLength s := by
  simp [declaredLength, memRead2, memRead1, h.1, h.2]

/-- Big-endian assembly as a number (20_memory.md R32). -/
theorem toNat_bigEndian (hi lo : Byte) : (hi ++ lo : Length).toNat = 256 * hi.toNat + lo.toNat := by
  have h : lo.toNat < 2 ^ 8 := lo.isLt
  rw [BitVec.toNat_append, Nat.shiftLeft_eq, Nat.mul_comm, Nat.two_pow_add_eq_or_of_lt h hi.toNat |>.symm]

end Sys2Proof.Machine
end

