-- ==== Sys2Proof/Laws/Decode.lean ====
section
/-! SUPPORT. The fields of a command word, and what each field pattern decodes to. -/

namespace Sys2Proof

@[simp] theorem opField_commandWord (op : BitVec 2) (a : Bool) (d : Byte) :
    opField (commandWord op a d) = op := by
  apply BitVec.eq_of_toNat_eq
  cases a <;> revert op d <;> decide +revert

/-- Bit `i` of a command word, by field. -/
theorem getLsbD_commandWord (op : BitVec 2) (a : Bool) (d : Byte) (i : Nat) :
    (commandWord op a d).getLsbD i =
      if i < 8 then d.getLsbD i else if i = 8 then a else op.getLsbD (i - 9) := by
  refine (BitVec.getLsbD_append (x := op) (y := BitVec.ofBool a ++ d)).trans ?_
  rw [BitVec.getLsbD_append]
  split_ifs with h1 h2 h3 h4 h5 <;> first | omega | rfl | skip
  subst h3
  simp

@[simp] theorem availField_commandWord (op : BitVec 2) (a : Bool) (d : Byte) :
    availField (commandWord op a d) = a := by
  rw [availField, getLsbD_commandWord]
  simp

@[simp] theorem dataField_commandWord (op : BitVec 2) (a : Bool) (d : Byte) :
    dataField (commandWord op a d) = d := by
  ext i hi
  simp [dataField, getLsbD_commandWord, hi, BitVec.getLsbD_eq_getElem]

/-- The ignored bits of a word are its `avail` and `data` fields. -/
theorem ignored_commandWord (op : BitVec 2) (a : Bool) (d : Byte) :
    (commandWord op a d).extractLsb' 0 9 = BitVec.ofBool a ++ d := by
  ext i hi
  rw [BitVec.getElem_extractLsb', getLsbD_commandWord, BitVec.getElem_append]
  split_ifs with h1 h2 h3 <;> first | omega | rfl | skip
  · rw [Nat.zero_add]; exact BitVec.getLsbD_eq_getElem h2
  · have h8 : i = 8 := by omega
    subst h8; simp

/-- A word is its three fields. -/
theorem commandWord_fields (w : CommandWord) :
    commandWord (opField w) (availField w) (dataField w) = w := by
  ext i hi
  simp only [commandWord, opField, availField, dataField]
  rw [BitVec.getElem_append]
  split
  · rw [BitVec.getElem_append]
    split
    · simp [BitVec.getLsbD_eq_getElem hi]
    · have : i = 8 := by omega
      subst this
      simp [BitVec.getLsbD_eq_getElem]
  · have h : 9 + (i - 9) = i := by omega
    simp [h, BitVec.getLsbD_eq_getElem hi]

@[simp] theorem decode_idle (a : Bool) (d : Byte) : decode (commandWord 0b00#2 a d) = .idle := by
  simp [decode]

@[simp] theorem decode_poll (a : Bool) (d : Byte) :
    decode (commandWord 0b01#2 a d) = if a then .pollByte d else .pollWait := by
  simp [decode]

@[simp] theorem decode_reset (a : Bool) (d : Byte) : decode (commandWord 0b10#2 a d) = .reset := by
  simp [decode]

@[simp] theorem decode_reserved (a : Bool) (d : Byte) :
    decode (commandWord 0b11#2 a d) = .reserved (BitVec.ofBool a ++ d) := by
  simp [decode, ignored_commandWord]

namespace Machine

@[simp] theorem word_ofWord (w : CommandWord) (rd : BitVec 8) : (Inputs.ofWord w rd).word = w :=
  commandWord_fields w

@[simp] theorem ofWord_rst (w : CommandWord) (rd : BitVec 8) : (Inputs.ofWord w rd).rst = false := rfl

end Machine

end Sys2Proof
end

