-- ==== Sys2Proof/Laws/PerInstr.lean ====
section
/-! SUPPORT. Per-command facts about the encoding: the word of a command selects that command's row of the
opcode table, and no other row (30_encoding.md R57). -/

namespace Sys2Proof.Laws.EncodesInRow

/-- The encoded word selects exactly the row that bears the command's mnemonic. -/
def Statement (i : Instr) : Prop :=
  (opcodeRows.filter fun r => r.selects (encode i)).map OpcodeRow.mnemonic = [i.mnemonic]

theorem idle : Statement .idle := by unfold Statement; decide

theorem pollWait : Statement .pollWait := by unfold Statement; decide

theorem pollByte (data : Byte) : Statement (.pollByte data) := by
  unfold Statement; revert data; decide

theorem reset : Statement .reset := by unfold Statement; decide

theorem reserved (ignored : BitVec 9) : Statement (.reserved ignored) := by
  unfold Statement; revert ignored; decide

end Sys2Proof.Laws.EncodesInRow
end

