-- ==== Sys2Proof/Laws/Step.lean ====
section
/-! SUPPORT. What a step can do, said once: a reset, an admission, or nothing to the buffer. -/

namespace Sys2Proof.Machine

open Sys2Proof.Safety

/-- The Packet Buffer and the outputs of a step that does not assert `rst`, by its command. -/
theorem step_of_not_rst {s : State} (h : s.input.rst = false) :
    step s = exec (decode s.input.word) s := by
  simp [step, h]

/-- A step that asserts `rst`. -/
theorem step_of_rst {s : State} (h : s.input.rst = true) : step s = .next (hardwareReset s) := by
  simp [step, h]

/-- This hardware's meanings are those at its capacity. -/
theorem exec_eq_execAt (i : Instr) (s : State) : exec i s = execAt Config.hardware i s := by
  cases i <;> rfl

/-- This hardware's step is the step at its capacity. -/
theorem step_eq_stepAt (s : State) : step s = stepAt Config.hardware s := by
  rw [step, stepAt, exec_eq_execAt]

/-- Everything a step can do to the Packet Buffer, with the result and `src_pop` it shows, at every
capacity. -/
theorem stepAt_cases (cfg : Config) (s : State) :
    (asksReset s.input = true ∧ stepAt cfg s = .next (finish s none false (emptyBuffer s))) ∨
    (s.input.rst = false ∧ decode s.input.word = .pollWait ∧
      stepAt cfg s = .next (finish s (some .waiting) false s)) ∨
    (s.input.rst = false ∧ decode s.input.word = .pollByte s.input.srcData ∧
      stepAt cfg s = .next (finish s (some (admitByte cfg s.input.srcData s).2) true
        (admitByte cfg s.input.srcData s).1)) ∨
    (asksReset s.input = false ∧ decode s.input.word ≠ .pollWait ∧
      (∀ d, decode s.input.word ≠ .pollByte d) ∧ stepAt cfg s = .next (finish s none false s)) := by
  cases hr : s.input.rst
  · have hs : stepAt cfg s = execAt cfg (decode s.input.word) s := by simp [stepAt, hr]
    rw [hs]
    cases hd : decode s.input.word with
    | idle => simp [asksReset, hr, hd, execAt, execIdle]
    | pollWait => simp [execAt, execPollWait]
    | pollByte d =>
      have hdd : d = s.input.srcData := by
        have h := hd
        simp only [decode] at h
        split at h
        · cases h
        · split at h
          · split at h
            · injection h with h; rw [← h]; exact dataField_commandWord _ _ _
            · cases h
          · split at h <;> cases h
      subst hdd
      simp [execAt, pollByteAt]
    | reset => simp [asksReset, hr, hd, execAt, execReset]
    | reserved r => simp [asksReset, hr, hd, execAt, execReserved]
  · exact .inl ⟨by simp [asksReset, hr], by simp [stepAt, hr, hardwareReset]⟩

/-- Everything a step of this hardware can do. -/
theorem step_cases (s : State) :
    (asksReset s.input = true ∧ step s = .next (finish s none false (emptyBuffer s))) ∨
    (s.input.rst = false ∧ decode s.input.word = .pollWait ∧
      step s = .next (finish s (some .waiting) false s)) ∨
    (s.input.rst = false ∧ decode s.input.word = .pollByte s.input.srcData ∧
      step s = .next (finish s (some (admitByte Config.hardware s.input.srcData s).2) true
        (admitByte Config.hardware s.input.srcData s).1)) ∨
    (asksReset s.input = false ∧ decode s.input.word ≠ .pollWait ∧
      (∀ d, decode s.input.word ≠ .pollByte d) ∧ step s = .next (finish s none false s)) := by
  rw [step_eq_stepAt]
  exact stepAt_cases Config.hardware s

/-- Every step gives a next state, at every capacity. -/
theorem stepAt_next (cfg : Config) (s : State) : ∃ t, stepAt cfg s = .next t := by
  rcases stepAt_cases cfg s with ⟨_, h⟩ | ⟨_, _, h⟩ | ⟨_, _, h⟩ | ⟨_, _, _, h⟩ <;> exact ⟨_, h⟩

/-- Every step gives a next state. -/
theorem step_next (s : State) : ∃ t, step s = .next t := by
  rcases step_cases s with ⟨_, h⟩ | ⟨_, _, h⟩ | ⟨_, _, h⟩ | ⟨_, _, _, h⟩ <;> exact ⟨_, h⟩

/-- What every step does to the model's own fields: it uses up its inputs and shows its outputs. -/
theorem step_frame {s t : State} (h : step s = .next t) :
    t.script = s.script.tail ∧ ∃ r pop, t.out = some (outputs s r pop) := by
  rcases step_cases s with ⟨_, e⟩ | ⟨_, _, e⟩ | ⟨_, _, e⟩ | ⟨_, _, _, e⟩ <;>
    (rw [e] at h; cases h; exact ⟨rfl, _, _, rfl⟩)

/-- The outputs of a step, by its inputs: a result exactly in a `POLL` (30_encoding.md R53), a byte
consumed exactly in a `POLL` with a byte available (20_memory.md R38). -/
theorem step_outputs (s : State) :
    ∃ t r pop, step s = .next t ∧ t.out = some (outputs s r pop) ∧
      (r.isSome = true ↔ s.input.rst = false ∧ s.input.op = 0b01#2) ∧
      (pop = true ↔ s.input.rst = false ∧ s.input.op = 0b01#2 ∧ s.input.srcAvail = true) := by
  cases hr : s.input.rst
  · rw [step_of_not_rst hr]
    have hall : ∀ op : BitVec 2, op = 0b00#2 ∨ op = 0b01#2 ∨ op = 0b10#2 ∨ op = 0b11#2 := by decide
    have hw : s.input.word = commandWord s.input.op s.input.srcAvail s.input.srcData := rfl
    rcases hall s.input.op with h | h | h | h
    · rw [hw, h, decode_idle]; exact ⟨_, _, _, rfl, rfl, by simp, by simp⟩
    · rw [hw, h, decode_poll]
      cases s.input.srcAvail <;> exact ⟨_, _, _, rfl, rfl, by simp, by simp⟩
    · rw [hw, h, decode_reset]; exact ⟨_, _, _, rfl, rfl, by simp, by simp⟩
    · rw [hw, h, decode_reserved]; exact ⟨_, _, _, rfl, rfl, by simp, by simp⟩
  · rw [step_of_rst hr]; exact ⟨_, _, _, rfl, rfl, by simp, by simp⟩

end Sys2Proof.Machine
end

