-- ==== Sys2Proof/Laws/Runs.lean ====
section
/-! SUPPORT. Runs and their records, one step at a time, and an induction over the steps of a run packaged
once. -/

namespace Sys2Proof.Machine

open Sys2Proof.Safety

@[simp] theorem run_zero (s : State) : Host.Core.run Sys2Proof.core 0 s = .next s := rfl

@[simp] theorem history_zero (s : State) (cfg : Config) : history 0 s cfg = [] := rfl

@[simp] theorem runAt_zero (cfg : Config) (s : State) :
    Host.Core.run (coreAt cfg) 0 s = .next s := rfl

/-- A run of `n + 1` steps at a capacity goes on from the state after the first. -/
theorem runAt_succ {cfg : Config} {s t : State} (h : stepAt cfg s = .next t) (n : Nat) :
    Host.Core.run (coreAt cfg) (n + 1) s = Host.Core.run (coreAt cfg) n t := by
  have hc : (coreAt cfg).step s = .next t := h
  simp only [Host.Core.run, hc]

/-- A run of `n + 1` steps goes on from the state after the first. -/
theorem run_succ {s t : State} (h : step s = .next t) (n : Nat) :
    Host.Core.run Sys2Proof.core (n + 1) s = Host.Core.run Sys2Proof.core n t := by
  have hc : Sys2Proof.core.step s = .next t := h
  simp only [Host.Core.run, hc]

/-- The record of `n + 1` steps begins with the first step's inputs and outputs. -/
theorem history_succ {s t : State} {o : Outputs} (h : step s = .next t) (ho : t.out = some o)
    (n : Nat) : history (n + 1) s = ⟨s.input, o⟩ :: history n t := by
  rw [step_eq_stepAt] at h
  simp [history, h, ho]

/-- The same at every capacity. -/
theorem historyAt_succ {cfg : Config} {s t : State} {o : Outputs} (h : stepAt cfg s = .next t)
    (ho : t.out = some o) (n : Nat) :
    history (n + 1) s cfg = ⟨s.input, o⟩ :: history n t cfg := by
  simp [history, h, ho]

/-- Every run completes. -/
theorem run_next (n : Nat) (s : State) : ∃ t : State, Host.Core.run Sys2Proof.core n s = .next t := by
  induction n generalizing s with
  | zero => exact ⟨s, rfl⟩
  | succ n ih =>
    obtain ⟨t, h⟩ := step_next s
    rw [run_succ h]
    exact ih t

/-- What holds at the start and is kept by every step whose inputs do not ask for a reset holds at the
end of every run without a reset. -/
theorem run_induction {P : State → Prop}
    (hstep : ∀ s t, asksReset s.input = false → step s = .next t → P s → P t)
    {n : Nat} {s t : State} (hn : NoReset n s) (hr : Host.Core.run Sys2Proof.core n s = .next t)
    (h : P s) : P t := by
  induction n generalizing s with
  | zero => cases hr; exact h
  | succ n ih =>
    obtain ⟨u, hu⟩ := step_next s
    obtain ⟨-, r, pop, ho⟩ := step_frame hu
    rw [run_succ hu] at hr
    rw [NoReset, history_succ hu ho] at hn
    simp only [List.mem_cons, forall_eq_or_imp] at hn
    exact ih hn.2 hr (hstep s u hn.1 hu h)

end Sys2Proof.Machine
end

