-- ==== Sys2Proof/Tests/Slice0.lean ====
section
/-! SUPPORT. Tests on values worked out in the spec (95_test_vectors.md, 30_encoding.md), the smoke test of the
well-formedness checks, and for each obligation with hypotheses a concrete case that meets them. -/

namespace Sys2Proof.Tests

open Sys2Proof.Machine Sys2Proof.Safety

/-- A state whose valid bytes are `bytes`, with the given inputs to come. -/
def stateOf (bytes : List Byte) (script : List Inputs) : State where
  body := bytes.zipIdx.map fun p => (p.2, p.1)
  size := bytes.length
  script := script
  out := none

/-- The inputs that present a command word, with `rd_addr` 0. -/
def at0 (w : CommandWord) : Inputs := Inputs.ofWord w 0#8

/-- The valid bytes, `size`, result and `src_pop` after a step. -/
def seen : Host.Outcome State Fault Refusal →
    Option (List Byte × Nat × Option (Option Status) × Option Bool)
  | .next t => some (validBytes t, t.size, t.out.map Outputs.result, t.out.map Outputs.srcPop)
  | .fault _ => none
  | .refused _ => none

/-! ### Well-formedness: an ill-formed term for each check -/

theorem test_wf_refuses_reserved : (Instr.reserved 0#9).wf = false := by decide
theorem test_wf_takes_the_rest :
    [Instr.idle, .pollWait, .pollByte 0xFF#8, .reset].all Instr.wf = true := by decide
theorem test_wf_refuses_empty_feed : (Pseudo.feed []).wf = false := by decide
theorem test_wf_refuses_rep_of_reserved : (Pseudo.rep 2 (.reserved 0#9)).wf = false := by decide
theorem test_wf_refuses_long_packet : (Pseudo.packet 0#8 (List.replicate 65533 0#8)).wf = false := by
  rw [Pseudo.wf, List.length_replicate]; decide
theorem test_wf_takes_longest_packet :
    (Pseudo.packet 0#8 (List.replicate 65532 0#8)).wf = true := by
  rw [Pseudo.wf, List.length_replicate]; decide
theorem test_program_wf_refuses_reserved :
    programWf [.idle, .reserved 5#9, .reset] = false := by decide

/-! ### Decoding, words written out bit by bit (95_test_vectors.md V1) -/

theorem test_decode_idle : decode 0b00111111111#11 = .idle := by decide
theorem test_decode_poll_wait : decode 0b01010101011#11 = .pollWait := by decide
theorem test_decode_poll_byte : decode 0b01100000101#11 = .pollByte 0x05#8 := by decide
theorem test_decode_reset : decode 0b10111111111#11 = .reset := by decide
theorem test_decode_reserved : decode 0b11000000000#11 = .reserved 0#9 := by decide
theorem test_decode_table_word : decodeTableWord 16 0x3BB = some (.pollByte 0xBB#8) := by decide
theorem test_decode_refuses_wide_word : decodeTableWord 16 0x0800 = none := by decide

/-! ### One step (the vector is named in each comment) -/

/-- V11: `IDLE` with a byte on offer. -/
theorem test_idle_keeps_the_byte :
    seen (step (stateOf [0x00#8, 0x09#8, 0x01#8] [at0 0x1FF#11])) =
      some ([0x00#8, 0x09#8, 0x01#8], 3, some none, some false) := by decide

/-- V19: `POLL.WAIT` on an oversized buffer. -/
theorem test_poll_wait_hides_oversize :
    seen (step (stateOf [0x00#8, 0x05#8, 0x01#8, 0xAA#8, 0xBB#8, 0xC0#8] [at0 0x200#11])) =
      some ([0x00#8, 0x05#8, 0x01#8, 0xAA#8, 0xBB#8, 0xC0#8], 6, some (some .waiting), some false) := by
  decide

/-- V21, step 5: the last byte of the packet. -/
theorem test_poll_byte_completes :
    seen (step (stateOf [0x00#8, 0x05#8, 0x01#8, 0xAA#8] [at0 0x3BB#11])) =
      some ([0x00#8, 0x05#8, 0x01#8, 0xAA#8, 0xBB#8], 5, some (some .valid), some true) := by decide

/-- V12: the byte after `VALID` is stored and reads; the one after it is rejected. -/
theorem test_poll_byte_past_valid :
    seen (step (stateOf [0x00#8, 0x02#8] [at0 0x3FF#11])) =
      some ([0x00#8, 0x02#8, 0xFF#8], 3, some (some .reading), some true) ∧
    seen (step (stateOf [0x00#8, 0x02#8, 0xFF#8] [at0 0x311#11])) =
      some ([0x00#8, 0x02#8, 0xFF#8], 3, some (some .invalid), some true) :=
  ⟨by decide, by decide⟩

/-- V10: `RESET` with a byte on offer. -/
theorem test_reset_keeps_the_byte :
    seen (step (stateOf [0x00#8, 0x09#8, 0x01#8] [at0 0x5FF#11])) =
      some ([], 0, some none, some false) := by decide

/-- V33: what the hardware does with the reserved command; and its sequence is refused. -/
theorem test_reserved :
    seen (step (stateOf [0x00#8, 0x05#8] [at0 0x7FF#11])) =
      some ([0x00#8, 0x05#8], 2, some none, some false) ∧
    seen (submit [at0 0x000#11, at0 0x7FF#11] State.reset) = none := by decide

/-- V30: the hardware reset overrides `POLL 0xBB`. -/
theorem test_hardware_reset :
    seen (step (stateOf [0x00#8, 0x05#8, 0x01#8, 0xAA#8] [{ at0 0x3BB#11 with rst := true }])) =
      some ([], 0, some none, some false) := by decide

/-- V32: the read port at and above `size`. -/
theorem test_read_port :
    [0#8, 1#8, 2#8, 3#8, 255#8].map (fun rd =>
      (outputs (stateOf [0x00#8, 0x03#8, 0x99#8] [Inputs.ofWord 0x000#11 rd]) none false).rdData) =
      [some 0x00#8, some 0x03#8, some 0x99#8, none, none] := by decide

/-- V3: the length is big-endian and unsigned. -/
theorem test_declared_length :
    (declaredLength (stateOf [0x01#8, 0x02#8] [])).map BitVec.toNat = some 258 ∧
    (declaredLength (stateOf [0x80#8, 0x00#8] [])).map BitVec.toNat = some 32768 ∧
    declaredLength (stateOf [0xFF#8] []) = none := by decide

/-- V4: strictness of the oversize test. -/
theorem test_oversized :
    isOversized (stateOf [0x00#8, 0x02#8] []) = false ∧
    isOversized (stateOf [0x00#8, 0x01#8] []) = true ∧
    isOversized (stateOf [0x00#8, 0x02#8, 0xFF#8] []) = true := by decide

/-- V2: the words of listings. -/
theorem test_listing :
    (Listing.readLine ['P','A','C','K','E','T',' ','0','x','0','1',',',' ','0','x','A','A',',',' ','0','x','B','B']).map
        (·.map encode) = some [0x300#11, 0x305#11, 0x301#11, 0x3AA#11, 0x3BB#11] ∧
    (Listing.readListing [['R','E','P',' ','3',',',' ','P','O','L','L',' ','-'],
        ['R','E','P',' ','0',',',' ','R','E','S','E','T',' ',';',' ','n','o','n','e']]).map
        (·.map encode) = some [0x200#11, 0x200#11, 0x200#11] := by decide

/-- R52: the four codes in the document's order. -/
theorem test_status_codes :
    [Status.waiting, .reading, .valid, .invalid].map (fun r => r.code.toNat) = [0, 1, 2, 3] := by decide

/-! ### Witnesses: cases that meet the hypotheses of the obligations -/

/-- A header of two bytes and 254 more. -/
def full (hi lo : Byte) (script : List Inputs) : State :=
  stateOf (hi :: lo :: List.replicate 254 0xEE#8) script

/-- A small machine whose capacity is 3. -/
def small : Config := { Config.hardware with maxPacketSize := 3 }

theorem witness_operand_fields :
    (stateOf [] [at0 0x1FF#11]).input.rst = false ∧ (stateOf [] [at0 0x1FF#11]).input.op ≠ 0b01#2 := by
  decide

theorem witness_wide_word : 2048 ≤ 0x0800 % 2 ^ 16 ∧ decodeTableWord 16 2047 ≠ none := by decide

theorem witness_listing : Listing.writeCommand (.pollByte 0x05#8) =
    some ['P', 'O', 'L', 'L', ' ', '0', 'x', '0', '5'] := by decide

theorem witness_hardware_reset :
    let s := stateOf [0x00#8] (List.replicate 2 { at0 0x3BB#11 with rst := true })
    s.input.rst = true ∧ 2 ≤ s.script.length ∧ ∀ i ∈ s.script.take 2, i.rst = true := by decide

theorem witness_step_runs :
    (stateOf [] [at0 0x3FF#11]).input.rst = false ∧ 2047 < 2048 ∧ State.reset.script = [] := by decide

theorem witness_buffer_inv :
    BufferInv Config.hardware State.reset ∧ BufferInv Config.hardware (stateOf [0x00#8, 0x05#8] []) ∧
    BufferInv small (stateOf [0x00#8, 0x05#8, 0x01#8] []) ∧
    BufferInv Config.hardware (full 0x01#8 0x00#8 []) := by decide +kernel

theorem witness_step_keeps_inv :
    BufferInv Config.hardware (stateOf [0x00#8] [at0 0x302#11]) ∧
    ∃ t, step (stateOf [0x00#8] [at0 0x302#11]) = .next t :=
  ⟨by decide, _, rfl⟩

theorem witness_three_events :
    ∃ t, step (stateOf [0x00#8] [at0 0x302#11]) = .next t ∧
      ¬ SameBuffer (stateOf [0x00#8] [at0 0x302#11]) t ∧
      asksReset (stateOf [0x00#8] [at0 0x302#11]).input = false :=
  ⟨_, rfl, by decide, by decide⟩

theorem witness_indistinguishable :
    let s := stateOf [0x00#8, 0x05#8] [at0 0x377#11]
    let t := { s with body := s.body ++ [(7, 0x77#8)] }
    s.size = t.size ∧ (∀ a < s.size, memRead1 s a = memRead1 t a) ∧ s.script = t.script := by decide

theorem witness_buffer_space :
    (2 : Nat) ≠ 1 ∧ Memory.wf [(0, 0x00#8), (5, 0x55#8)] := by decide

theorem witness_declared_length :
    (stateOf [0xFF#8] []).size < 2 ∧ BufferInv Config.hardware (stateOf [0xFF#8, 0xFF#8] []) ∧
    2 ≤ (stateOf [0xFF#8, 0xFF#8] []).size := by decide

theorem witness_declared_type :
    (stateOf [0x00#8, 0x05#8] []).size < 3 ∧
    BufferInv Config.hardware (stateOf [0x00#8, 0x03#8, 0x99#8] []) ∧
    3 ≤ (stateOf [0x00#8, 0x03#8, 0x99#8] []).size := by decide

theorem witness_oversized :
    (stateOf [0x00#8] []).size < 2 ∧ BufferInv small (stateOf [0x00#8, 0x01#8] []) ∧
    declaredLength (stateOf [0x00#8, 0x01#8] []) = some 1#16 ∧
    declaredLength (stateOf [0x00#8, 0x02#8] []) = some 2#16 ∧
    BufferInv small (stateOf [0x00#8, 0x03#8, 0x01#8] []) ∧
    declaredLength (stateOf [0x00#8, 0x03#8, 0x01#8] []) = some 3#16 := by decide

theorem witness_append :
    (stateOf [0x00#8] []).size < small.maxPacketSize ∧ lenKnown (stateOf [0x00#8] []) = false ∧
    typeKnown (stateOf [0x00#8, 0x05#8] []) = false ∧
    (stateOf [0x00#8, 0x05#8, 0x01#8] []).size = small.maxPacketSize ∧
    (full 0x01#8 0x00#8 []).size = Config.hardware.maxPacketSize ∧
    isOversized (full 0x01#8 0x00#8 []) = false := by decide +kernel

theorem witness_admitted : small.Admitted ∧ Config.Admitted ⟨65535, 0⟩ := by decide

theorem witness_poll_wait_run :
    let s := stateOf [0x00#8] (List.replicate 3 (at0 0x200#11))
    3 ≤ s.script.length ∧ ∀ i ∈ s.script.take 3, i.rst = false ∧ decode i.word = .pollWait := by decide

theorem witness_reset_command :
    EmptyBuffer State.reset ∧ asksReset (stateOf [] [at0 0x300#11]).input = false ∧
    ∃ t, step (stateOf [] [at0 0x300#11]) = .next t :=
  ⟨by decide, by decide, _, rfl⟩

theorem witness_reserved : Instr.reserved 3#9 ∈ [Instr.idle, .reserved 3#9] := by decide

theorem witness_poll_byte :
    isOversized (stateOf [0x00#8, 0x01#8] []) = true ∧
    isOversized (stateOf [0x00#8, 0x02#8] []) = false ∧
    (stateOf [0x00#8, 0x02#8] []).size < Config.hardware.maxPacketSize ∧
    isOversized (full 0x01#8 0x01#8 []) = false ∧
    Config.hardware.maxPacketSize ≤ (full 0x01#8 0x01#8 []).size := by decide +kernel

/-- Both clauses of the classification are met: the second byte completes a length of 2, not of 5. -/
theorem witness_classify :
    isOversized (stateOf [0x00#8] []) = false ∧
    isComplete (append Config.hardware 0x02#8 (stateOf [0x00#8] [])) = true ∧
    isComplete (append Config.hardware 0x05#8 (stateOf [0x00#8] [])) = false := by decide

/-- Each row of the case table, at capacity 3. -/
theorem witness_case_table :
    small.Admitted ∧ BufferInv small State.reset ∧ BufferInv small (stateOf [0x00#8] []) ∧
    ([[0x00#8, 0x01#8], [0x00#8, 0x02#8], [0x00#8, 0x03#8], [0x00#8, 0x04#8], [0x00#8, 0x02#8, 0xEE#8],
        [0x00#8, 0x03#8, 0xEE#8], [0x00#8, 0x04#8, 0xEE#8]].map fun bytes =>
      (decide (BufferInv small (stateOf bytes [])), (stateOf bytes []).size,
        (declaredLength (stateOf bytes [])).map BitVec.toNat)) =
      [(true, 2, some 1), (true, 2, some 2), (true, 2, some 3), (true, 2, some 4), (true, 3, some 2),
        (true, 3, some 3), (true, 3, some 4)] := by decide

theorem witness_poll_order :
    let s := full 0x00#8 0xFF#8 [at0 0x342#11]
    s.input.rst = false ∧ s.input.op = 0b01#2 ∧ s.input.srcAvail = true ∧
    s.size = Config.hardware.maxPacketSize ∧ isOversized s = true ∧
    declaredLength s = some 255#16 ∧ isComplete (full 0x01#8 0x00#8 [at0 0x342#11]) = true := by decide +kernel

theorem witness_poll_order_small :
    (stateOf [0x00#8] [at0 0x200#11]).input.srcAvail = false ∧
    (stateOf [0x00#8] [at0 0x305#11]).input.op = 0b01#2 ∧
    isOversized (stateOf [0x00#8] [at0 0x305#11]) = false := by decide

theorem witness_invalid_step :
    (∃ t, step (stateOf [0x00#8, 0x01#8] [at0 0x307#11]) = .next t ∧ Shows t (some .invalid) true) ∧
    ∃ t, step (stateOf [0x00#8] [at0 0x301#11]) = .next t ∧
      isOversized (stateOf [0x00#8] [at0 0x301#11]) = false ∧ isOversized t = true :=
  ⟨⟨_, rfl, by decide⟩, _, rfl, by decide, by decide⟩

theorem witness_truncation :
    BufferInv Config.hardware (full 0x01#8 0x00#8 []) ∧
    (full 0x01#8 0x00#8 []).size = Config.hardware.maxPacketSize ∧
    isOversized (full 0x01#8 0x00#8 []) = false ∧
    BufferInv Config.hardware (full 0x01#8 0x01#8 []) ∧
    isOversized (full 0x01#8 0x01#8 []) = false := by decide +kernel

/-- A port with no value allows every level. -/
theorem no_line {α : Type} {o : Option α} (h : o = none) (level : α) : ∀ v ∈ o, level = v := by
  simp [h]

/-- Pin levels that carry a step's outputs, the unknown lines at arbitrary levels. -/
theorem witness_ports :
    let s := stateOf [0x00#8] [at0 0x302#11]
    BufferInv Config.hardware s ∧
    (∃ t, step s = .next t ∧ t.out = some (outputs s (some .valid) true)) ∧
    (outputs s (some .valid) true).Drives
      ⟨true, 0b10#2, true, 1#9, false, 0xABCD#16, false, 0x77#8, false, true, 0x00#8⟩ ∧
    (outputs (stateOf [] [at0 0x1FF#11]) none false).Drives
      ⟨false, 0b00#2, false, 0#9, false, 0x1234#16, false, 0x00#8, false, false, 0xFF#8⟩ :=
  ⟨by decide, ⟨_, rfl, by decide⟩,
    ⟨rfl, rfl, rfl, rfl, rfl, no_line rfl _, rfl, no_line rfl _, rfl, rfl,
      fun _ h => Option.some.inj h⟩,
    ⟨rfl, rfl, rfl, rfl, rfl, no_line rfl _, rfl, no_line rfl _, rfl, rfl, no_line rfl _⟩⟩

/-- Each of the four results occurs in a `POLL` step, with its code of R52's table. -/
theorem witness_status_codes :
    [stateOf [0x00#8] [at0 0x200#11], stateOf [0x00#8] [at0 0x303#11], stateOf [0x00#8] [at0 0x302#11],
      stateOf [0x00#8, 0x01#8] [at0 0x307#11]].map (fun s =>
        (polls s.input, (history 1 s).map fun r => r.output.result.map Status.code)) =
      [(true, [some 0#2]), (true, [some 1#2]), (true, [some 2#2]), (true, [some 3#2])] := by decide

theorem witness_read_port :
    (outputs (stateOf [0x00#8] [Inputs.ofWord 0x000#11 0#8]) none false).rdValid = true ∧
    (outputs (stateOf [0x00#8] [Inputs.ofWord 0x000#11 1#8]) none false).rdValid = false := by decide

/-- Each phase, with the boundary of each condition of the transition table. -/
theorem witness_phases :
    ([[], [0x00#8], [0x00#8, 0x04#8], [0x00#8, 0x03#8], [0x00#8, 0x02#8], [0x00#8, 0x01#8]].map fun bytes =>
      (decide (BufferInv Config.hardware (stateOf bytes [])), phase (stateOf bytes []))) =
      [(true, .header), (true, .header), (true, .assembling), (true, .assembling), (true, .complete),
        (true, .oversized)] ∧
    phase (full 0x01#8 0x00#8 []) = .complete ∧ phase (full 0x01#8 0x01#8 []) = .assembling := by decide +kernel

/-- A run of three polls from the empty buffer that returns `VALID` at the end. -/
def packetRun : State := stateOf [] [at0 0x300#11, at0 0x200#11, at0 0x302#11]

theorem witness_runs :
    EmptyBuffer packetRun ∧ NoReset 3 packetRun ∧
    streamLength (consumedBytes (history 3 packetRun)) = some 2 ∧
    (consumedBytes (history 1 packetRun)).length < 2 ∧
    (∀ r ∈ history 2 packetRun, r.output.result ≠ some .valid) ∧
    (∀ r ∈ history 3 packetRun, r.rejects = false ∧ r.drops Config.hardware = false) ∧
    sourceServes [0x00#8, 0x02#8, 0x99#8] (history 3 packetRun) = true ∧
    resetsAfterTerminal false (history 3 packetRun) = true ∧
    checksLength Config.hardware (history 3 packetRun) = true ∧
    heedsOversized (history 3 packetRun) = true := by decide

theorem witness_run_ends_valid :
    ∃ t : State, Host.Core.run Sys2Proof.core 3 packetRun = .next t ∧ Shows t (some .valid) true :=
  ⟨_, rfl, by decide⟩

theorem witness_grows :
    NoReset 1 (stateOf [0x00#8, 0x05#8, 0x01#8] [at0 0x3AA#11]) ∧
    declaredLength (stateOf [0x00#8, 0x05#8, 0x01#8] []) = some 5#16 ∧
    declaredType (stateOf [0x00#8, 0x05#8, 0x01#8] []) = some 0x01#8 ∧
    ∃ t : State, Host.Core.run Sys2Proof.core 1 (stateOf [0x00#8, 0x05#8, 0x01#8] [at0 0x3AA#11]) = .next t :=
  ⟨by decide, by decide, by decide, _, rfl⟩

theorem witness_sticky :
    let s := stateOf [0x00#8, 0x01#8] [at0 0x307#11, at0 0x200#11]
    isOversized s = true ∧ NoReset 2 s := by decide

/-- V16 and V26 in small: a rejection and a drop do occur in runs without a reset. -/
theorem witness_lost_bytes :
    (history 3 (stateOf [] [at0 0x300#11, at0 0x300#11, at0 0x307#11])).countP Record.rejects = 1 ∧
    (history 1 (full 0x01#8 0x01#8 [at0 0x300#11])).countP (Record.drops Config.hardware) = 1 := by
  decide +kernel

/-- A packet of declared length 257 fed to an empty buffer: the 257th byte is dropped. -/
def dropRun : State := stateOf [] (List.replicate 257 (at0 0x301#11))

/-- A drop in a run from an empty buffer without a reset. -/
theorem witness_drop_from_empty :
    EmptyBuffer dropRun ∧ NoReset 257 dropRun ∧
    (history 257 dropRun).countP (Record.drops Config.hardware) = 1 ∧
    (consumedBytes (history 257 dropRun)).length = 257 := by decide +kernel

/-- A rejection in a run from an empty buffer without a reset (V16). -/
theorem witness_rejection_from_empty :
    let s := stateOf [] [at0 0x300#11, at0 0x300#11, at0 0x307#11]
    EmptyBuffer s ∧ NoReset 3 s ∧ (history 3 s).countP Record.rejects = 1 := by decide

/-- At capacity 3 the fourth byte of a longer packet is dropped, the third is stored. -/
theorem witness_other_capacity :
    small.Admitted ∧ BufferInv small (stateOf [0x00#8, 0x05#8] []) ∧
    isOversized (stateOf [0x00#8, 0x05#8] []) = false ∧
    (stateOf [0x00#8, 0x05#8, 0x01#8] []).size = small.maxPacketSize ∧
    (∃ t, stepAt small (stateOf [0x00#8, 0x05#8] [at0 0x301#11]) = .next t ∧ t.size = 3) ∧
    (∃ t, stepAt small (stateOf [0x00#8, 0x05#8, 0x01#8] [at0 0x3AA#11]) = .next t ∧ t.size = 3) ∧
    (∀ d, Instr.idle ≠ .pollByte d) :=
  ⟨by decide, by decide, by decide, by decide, ⟨_, rfl, by decide⟩, ⟨_, rfl, by decide⟩,
    fun _ h => nomatch h⟩

theorem witness_submit :
    (stateOf [] []).script = [] ∧ (at0 0x600#11).issuesReserved = true ∧
    ∃ t, submit [at0 0x200#11] (stateOf [] []) = .next t :=
  ⟨by decide, by decide, _, rfl⟩

theorem witness_one_poll :
    let e : Environment := ⟨false, 0b01#2, 0#8, true, 0#8⟩
    e.rst = false ∧ e.op = 0b01#2 ∧ e.ready = true ∧ ([0x55#8] : Source) ≠ [] := by decide

theorem witness_packet :
    let s := stateOf [] (inputsOf (Listing.expand (.packet 0x99#8 [])) 0#8)
    EmptyBuffer s ∧ ([] : List Byte).length + 3 ≤ Config.hardware.maxPacketSize ∧
    s.script = inputsOf (Listing.expand (.packet 0x99#8 [])) 0#8 := by decide

end Sys2Proof.Tests
end

section
/-! PROOFS. The configuration acts through its capacity alone (00_scope.md R1, R2): each shared operation takes
the same values at two configurations of the same `maxPacketSize`, whatever their inter-packet delays. -/

namespace Sys2Proof.Machine

open Sys2Proof.Safety

section SameCapacity

variable {cfg cfg' : Config} (h : cfg'.maxPacketSize = cfg.maxPacketSize)
include h

theorem append_eq_of_maxPacketSize_eq (b : Byte) (s : State) :
    append cfg' b s = append cfg b s := by
  rcases Nat.lt_or_ge s.size cfg.maxPacketSize with hlt | hge
  · rw [append_below hlt, append_below (h ▸ hlt)]
  · rw [append_full hge, append_full (h ▸ hge)]

theorem admitByte_eq_of_maxPacketSize_eq (b : Byte) (s : State) :
    admitByte cfg' b s = admitByte cfg b s := by
  simp only [admitByte, append_eq_of_maxPacketSize_eq h]

theorem execAt_eq_of_maxPacketSize_eq (i : Instr) (s : State) :
    execAt cfg' i s = execAt cfg i s := by
  cases i with
  | pollByte d => simp only [execAt, pollByteAt, admitByte_eq_of_maxPacketSize_eq h]
  | idle | pollWait | reset | reserved _ => rfl

theorem stepAt_eq_of_maxPacketSize_eq (s : State) : stepAt cfg' s = stepAt cfg s := by
  simp only [stepAt, execAt_eq_of_maxPacketSize_eq h]

theorem runAt_eq_of_maxPacketSize_eq (n : Nat) (s : State) :
    Host.Core.run (coreAt cfg') n s = Host.Core.run (coreAt cfg) n s := by
  induction n generalizing s with
  | zero => rfl
  | succ n ih =>
    obtain ⟨t, ht⟩ := stepAt_next cfg s
    have ht' : stepAt cfg' s = .next t := (stepAt_eq_of_maxPacketSize_eq h s).trans ht
    rw [runAt_succ ht, runAt_succ ht']
    exact ih t

theorem historyAt_eq_of_maxPacketSize_eq (n : Nat) (s : State) :
    history n s cfg' = history n s cfg := by
  induction n generalizing s with
  | zero => rfl
  | succ n ih => simp only [history, stepAt_eq_of_maxPacketSize_eq h, ih]

end SameCapacity

/-- Settles O23: changing the delay leaves the capacity as it is, and nothing else of the configuration
is read. -/
theorem interPacketDelayHasNoEffect : Obligations.InterPacketDelayHasNoEffect := by
  refine ⟨rfl, fun cfg delay b s => ?_⟩
  have hcap : { cfg with minInterPacketDelay := delay }.maxPacketSize = cfg.maxPacketSize := rfl
  exact ⟨append_eq_of_maxPacketSize_eq hcap b s, admitByte_eq_of_maxPacketSize_eq hcap b s,
    fun i => execAt_eq_of_maxPacketSize_eq hcap i s, stepAt_eq_of_maxPacketSize_eq hcap s,
    fun n => ⟨runAt_eq_of_maxPacketSize_eq hcap n s, historyAt_eq_of_maxPacketSize_eq hcap n s⟩⟩

end Sys2Proof.Machine
end

section
/-! PROOFS. The reset state and the range of `size` (10_state.md R13, R23): below two stored bytes nothing is
known, and the invariant holds along every run at every capacity. -/

namespace Sys2Proof.Machine

open Sys2Proof.Safety

/-- A cell at or above `size` has no value (R14). -/
theorem memRead1_of_size_le {s : State} {a : Nat} (h : s.size ≤ a) : memRead1 s a = none := by
  simp [memRead1, Nat.not_lt.mpr h]

/-- The type is unknown while fewer than three bytes are stored. -/
theorem declaredType_of_lt {s : State} (h : s.size < 3) : declaredType s = none := by
  simp [declaredType, h]

theorem isOversized_of_lt {s : State} (h : s.size < 2) : isOversized s = false := by
  simp [isOversized, declaredLength_of_lt h]

theorem isComplete_of_lt {s : State} (h : s.size < 2) : isComplete s = false := by
  simp [isComplete, declaredLength_of_lt h]

/-- Settles O7: every query is settled by `size = 0`, which is below every address, below the two bytes
of a known length and below the three of a known type. -/
theorem resetStateIsEmpty : Obligations.ResetStateIsEmpty := by
  have h2 : State.reset.size < 2 := by decide
  have h3 : State.reset.size < 3 := by decide
  refine ⟨reset_size, fun a => memRead1_of_size_le (Nat.zero_le a), ?_, ?_, isOversized_of_lt h2,
    isComplete_of_lt h2, declaredLength_of_lt h2, declaredType_of_lt h3, fun i r pop => ⟨?_, ?_⟩⟩
  · exact decide_eq_false (Nat.not_le.mpr h2)
  · exact decide_eq_false (Nat.not_le.mpr h3)
  · simp
  · rw [outputs_rdData]
    exact memRead1_of_size_le (Nat.zero_le _)

/-- Every step keeps the invariant, at every capacity: a reset empties the buffer, a `POLL.BYTE` admits a byte, and
`POLL.WAIT` and the other commands leave the buffer as it is. -/
theorem bufferInv_stepAt {cfg : Config} {s t : State} (h : BufferInv cfg s)
    (hs : stepAt cfg s = .next t) : BufferInv cfg t := by
  rcases stepAt_cases cfg s with ⟨_, e⟩ | ⟨_, _, e⟩ | ⟨_, _, e⟩ | ⟨_, _, _, e⟩ <;>
    (rw [e] at hs; cases hs)
  · exact bufferInv_empty ⟨rfl, rfl⟩
  · exact bufferInv_of_eq h rfl rfl
  · exact bufferInv_of_eq (bufferInv_admitByte h _) rfl rfl
  · exact bufferInv_of_eq h rfl rfl

/-- Every run completes and keeps the invariant, at every capacity. -/
theorem bufferInv_runAt {cfg : Config} (n : Nat) {s : State} (h : BufferInv cfg s) :
    ∃ t : State, Host.Core.run (coreAt cfg) n s = .next t ∧ BufferInv cfg t := by
  induction n generalizing s with
  | zero => exact ⟨s, rfl, h⟩
  | succ n ih =>
    obtain ⟨u, hu⟩ := stepAt_next cfg s
    rw [runAt_succ hu]
    exact ih (bufferInv_stepAt h hu)

/-- This hardware's runs are those at its capacity. -/
theorem run_eq_runAt (n : Nat) (s : State) :
    Host.Core.run Sys2Proof.core n s = Host.Core.run (coreAt Config.hardware) n s := by
  induction n generalizing s with
  | zero => rfl
  | succ n ih =>
    obtain ⟨t, ht⟩ := step_next s
    rw [run_succ ht, runAt_succ ((step_eq_stepAt s).symm.trans ht)]
    exact ih t

/-- Settles O13: `size <= N` is a part of the invariant, which the reset state meets under every input
script and every run keeps. -/
theorem sizeNeverExceedsCapacity : Obligations.SizeNeverExceedsCapacity := by
  refine ⟨fun inputs n => ?_, fun cfg b s h => ⟨bufferInv_append h b, bufferInv_admitByte h b⟩⟩
  have hreset : BufferInv Config.hardware { State.reset with script := inputs } :=
    bufferInv_empty ⟨rfl, rfl⟩
  obtain ⟨t, ht, -, hsize⟩ := bufferInv_runAt n hreset
  exact ⟨t, (run_eq_runAt n _).trans ht, hsize⟩

end Sys2Proof.Machine
end

section
/-! PROOFS. What a step reads (10_state.md R20, 20_memory.md R41): `rst`, the command word and the Packet Buffer
fix what the step does, and the read port only looks at the pre-state. -/

namespace Sys2Proof.Machine

open Sys2Proof.Safety

section SameBuffer

variable {s t : State} (h : SameBuffer s t)
include h

theorem isOversized_congr : isOversized t = isOversized s := by
  simp only [isOversized, declaredLength_congr h, h.2]

theorem isComplete_congr : isComplete t = isComplete s := by
  simp only [isComplete, declaredLength_congr h, h.2]

theorem append_congr (cfg : Config) (b : Byte) : SameBuffer (append cfg b s) (append cfg b t) := by
  obtain ⟨hbody, hsize⟩ := h
  rcases Nat.lt_or_ge s.size cfg.maxPacketSize with hlt | hge
  · rw [append_below hlt, append_below (hsize ▸ hlt), hbody, hsize]
    exact ⟨rfl, rfl⟩
  · rw [append_full hge, append_full (hsize ▸ hge)]
    exact ⟨hbody, hsize⟩

theorem admitByte_congr (cfg : Config) (b : Byte) :
    SameBuffer (admitByte cfg b s).1 (admitByte cfg b t).1 ∧
      (admitByte cfg b t).2 = (admitByte cfg b s).2 := by
  have happend := append_congr h cfg b
  simp only [admitByte, isOversized_congr h, isComplete_congr happend]
  split
  · exact ⟨h, rfl⟩
  · split <;> exact ⟨happend, rfl⟩

/-- Two steps from the same Packet Buffer with the same `rst` and command word give the same result and
`src_pop` and leave the same Packet Buffer, whatever else the states hold. -/
theorem step_congr (hrst : t.input.rst = s.input.rst) (hword : t.input.word = s.input.word) :
    ∃ (r : Option Status) (pop : Bool) (s' t' : State), SameBuffer s' t' ∧
      step s = .next (finish s r pop s') ∧ step t = .next (finish t r pop t') := by
  cases hr : s.input.rst with
  | true => exact ⟨_, _, _, _, ⟨rfl, rfl⟩, step_of_rst hr, step_of_rst (hrst.trans hr)⟩
  | false =>
    rw [step_of_not_rst hr, step_of_not_rst (hrst.trans hr), hword]
    cases decode s.input.word with
    | idle | pollWait | reserved _ => exact ⟨_, _, s, t, h, rfl, rfl⟩
    | reset => exact ⟨_, _, emptyBuffer s, emptyBuffer t, ⟨rfl, rfl⟩, rfl, rfl⟩
    | pollByte d =>
      obtain ⟨hbuffer, hresult⟩ := admitByte_congr h Config.hardware d
      exact ⟨_, _, _, _, hbuffer, rfl, by rw [← hresult]; rfl⟩

end SameBuffer

theorem memRead1_of_lt {s : State} {a : Nat} (h : a < s.size) : memRead1 s a = s.body.read a :=
  if_pos h

/-- Settles O41: the ports show the pre-state whatever the command, and `rd_addr` is neither `rst` nor a part
of the command word. -/
theorem readPortShowsThePreStateCell : Obligations.ReadPortShowsThePreStateCell := by
  constructor
  · intro s t o hstep hout
    obtain ⟨-, r, pop, hshown⟩ := step_frame hstep
    obtain rfl : outputs s r pop = o := Option.some.inj (hshown.symm.trans hout)
    rw [outputs_rdValid, outputs_rdData, decide_eq_true_iff, decide_eq_false_iff_not]
    refine ⟨Iff.rfl, fun hge => memRead1_of_size_le (Nat.not_lt.mp hge), fun hinv hlt => ?_⟩
    obtain ⟨b, hb⟩ := bufferInv_memRead1 hinv hlt
    exact ⟨b, (memRead1_of_lt hlt).symm.trans hb, hb⟩
  · intro s rd
    obtain ⟨r, pop, s', t', hbuffer, hs, ht⟩ :=
      step_congr (s := s) (t := s.present { s.input with rdAddr := rd }) ⟨rfl, rfl⟩ rfl rfl
    exact ⟨_, _, hs, ht, hbuffer, rfl, rfl, rfl⟩

end Sys2Proof.Machine
end

section
/-! PROOFS. The operand fields of the command word and the header values (30_encoding.md R54 to R56): which
cells a declared value is read from, and which of them the admission of a byte depends on. -/

namespace Sys2Proof.Machine

open Sys2Proof.Safety

/-- What the ports of a completed step say about its inputs (`step_outputs`, at the step's own outputs). -/
theorem step_ports {s t : State} {o : Outputs} (hstep : step s = .next t) (hout : t.out = some o) :
    (o.result.isSome = true ↔ s.input.rst = false ∧ s.input.op = 0b01#2) ∧
    (o.srcPop = true ↔
      s.input.rst = false ∧ s.input.op = 0b01#2 ∧ s.input.srcAvail = true) := by
  obtain ⟨u, r, pop, hu, hshown, hresult, hpop⟩ := step_outputs s
  obtain rfl : u = t := Host.Outcome.next.inj (hu.symm.trans hstep)
  obtain rfl : outputs s r pop = o := Option.some.inj (hshown.symm.trans hout)
  exact ⟨hresult, hpop⟩

/-- A step whose `op` is not `POLL` shows no result and consumes no byte, whatever `avail` and `data` say. -/
theorem step_shows_nothing {s : State} (hop : s.input.op ≠ 0b01#2) :
    ∃ t, step s = .next t ∧ Shows t none false := by
  obtain ⟨t, hstep⟩ := step_next s
  obtain ⟨-, r, pop, hout⟩ := step_frame hstep
  obtain ⟨hresult, hpop⟩ := step_ports hstep hout
  have hr : r = none := Option.not_isSome_iff_eq_none.mp fun h => hop (hresult.mp h).2
  have hp : pop = false := Bool.eq_false_iff.mpr fun h => hop (hpop.mp h).2.1
  exact ⟨t, hstep, by simp [hout, hr], by simp [hout, hp]⟩

/-- Settles O4: each `op` decodes by the law of its field pattern, and only `op = POLL` consumes a byte. -/
theorem operandFieldsDecode : Obligations.OperandFieldsDecode := by
  refine ⟨fun avail data => ⟨decode_poll avail data, decode_idle avail data, decode_reset avail data,
    _, decode_reserved avail data⟩, fun s _ hop => step_shows_nothing hop, ?_⟩
  decide

/-- Settles O18: the length is the concatenation of the two bytes below cell 2, the first one on top. -/
theorem declaredLengthIsBigEndian : Obligations.DeclaredLengthIsBigEndian := by
  refine ⟨fun s h => declaredLength_of_lt h, fun cfg s hinv h2 => ?_⟩
  obtain ⟨hi, lo, h0, h1, hlen⟩ := bufferInv_declaredLength hinv h2
  rw [memRead1_of_lt (by omega)] at h0 h1
  have hvalue : (hi ++ lo : Length).toNat = hi.toNat * 256 + lo.toNat := by
    rw [toNat_bigEndian, Nat.mul_comm]
  exact ⟨hi, lo, hi ++ lo, h0, h1, hlen, BitVec.extractLsb'_append_eq_left,
    BitVec.extractLsb'_append_eq_right, hvalue, Nat.le_of_lt_succ (hi ++ lo : Length).isLt⟩

/-- In the invariant, the type is the third byte as soon as it is stored. -/
theorem bufferInv_declaredType {cfg : Config} {s : State} (h : BufferInv cfg s) (h3 : 3 ≤ s.size) :
    ∃ b, s.body.read 2 = some b ∧ declaredType s = some b := by
  obtain ⟨b, hb⟩ := bufferInv_memRead1 h (a := 2) h3
  exact ⟨b, (memRead1_of_lt h3).symm.trans hb, by rw [declaredType, if_neg (Nat.not_lt.mpr h3), hb]⟩

theorem append_size (cfg : Config) (b : Byte) (s : State) :
    (append cfg b s).size = if s.size < cfg.maxPacketSize then s.size + 1 else s.size := by
  unfold append; split <;> rfl

/-- The cells after the admission of a byte: the byte at cell `size` when it is stored, and every other cell
as it was. -/
theorem admitByte_read (cfg : Config) (b : Byte) (s : State) (a : Nat) :
    (admitByte cfg b s).1.body.read a =
      if isOversized s = false ∧ s.size < cfg.maxPacketSize ∧ a = s.size then some b
      else s.body.read a := by
  rw [admitByte_state]
  cases isOversized s with
  | true => simp
  | false =>
    rcases Nat.lt_or_ge s.size cfg.maxPacketSize with hlt | hge
    · simp [append_below hlt, Memory.read_write, hlt]
    · simp [append_full hge, Nat.not_lt.mpr hge]

section SameLength

variable {s t : State} (hlen : declaredLength t = declaredLength s) (hsize : t.size = s.size)
include hlen hsize

theorem isOversized_eq_of_declaredLength_eq : isOversized t = isOversized s := by
  simp only [isOversized, hlen, hsize]

theorem isComplete_eq_of_declaredLength_eq : isComplete t = isComplete s := by
  simp only [isComplete, hlen, hsize]

/-- Once the length is stored, the result and the next `size` of an admission depend on the length and on
`size` alone. -/
theorem admitByte_eq_of_declaredLength_eq (h2 : 2 ≤ s.size) (cfg : Config) (b : Byte) :
    (admitByte cfg b t).2 = (admitByte cfg b s).2 ∧
      (admitByte cfg b t).1.size = (admitByte cfg b s).1.size := by
  have hsize' : (append cfg b t).size = (append cfg b s).size := by
    rw [append_size, append_size, hsize]
  have hlen' : declaredLength (append cfg b t) = declaredLength (append cfg b s) := by
    rw [declaredLength_append h2, declaredLength_append (hsize ▸ h2), hlen]
  simp only [admitByte, isOversized_eq_of_declaredLength_eq hlen hsize,
    isComplete_eq_of_declaredLength_eq hlen' hsize']
  split
  · exact ⟨rfl, hsize⟩
  · split <;> exact ⟨rfl, hsize'⟩

end SameLength

/-- A write above the length field keeps the declared length. -/
theorem declaredLength_write {s : State} {a : Nat} (ha : 2 ≤ a) (v : Byte) :
    declaredLength { s with body := s.body.write a v } = declaredLength s := by
  have h0 : 0 ≠ a := by omega
  have h1 : 1 ≠ a := by omega
  simp [declaredLength, memRead2, memRead1, Memory.read_write, h0, h1]

/-- Settles O19: a write to cell 2 keeps `size` and the declared length, which alone the admission of a byte
reads, and the admission writes no cell below `size`. -/
theorem declaredTypeIsTheThirdByte : Obligations.DeclaredTypeIsTheThirdByte := by
  refine ⟨fun s h => declaredType_of_lt h, fun cfg s hinv h3 => bufferInv_declaredType hinv h3,
    fun cfg s v b h3 => ?_⟩
  have hlen : declaredLength { s with body := s.body.write 2 v } = declaredLength s :=
    declaredLength_write (Nat.le_refl 2) v
  have h2 : 2 ≠ s.size := by omega
  have hover := isOversized_eq_of_declaredLength_eq hlen rfl
  obtain ⟨hresult, hsize⟩ := admitByte_eq_of_declaredLength_eq hlen rfl (by omega) cfg b
  refine ⟨hresult, hsize, fun a ha => ?_, ?_, ?_⟩
  · simp only [admitByte_read, hover, Memory.read_write, if_neg ha]
  · simp [admitByte_read, Memory.read_write, h2]
  · simp [admitByte_read, h2]

end Sys2Proof.Machine
end

section
/-! PROOFS. The port `status` (30_encoding.md R52, R53): the code on the pins names the result, and the result
names what the step did. -/

namespace Sys2Proof.Machine

open Sys2Proof.Safety

/-- The codes of the four results differ. -/
theorem Status.code_inj {r r' : Status} : r.code = r'.code ↔ r = r' := by
  cases r <;> cases r' <;> decide

/-- The level on `status` in a step with a result. -/
theorem drives_status_iff {o : Outputs} {p : Pins} (hp : o.Drives p) (hsome : o.result.isSome = true)
    (r : Status) : p.status = r.code ↔ o.result = some r := by
  obtain ⟨r', hr'⟩ := Option.isSome_iff_exists.mp hsome
  obtain ⟨-, hstatus, -⟩ := hp
  rw [hr'] at hstatus ⊢
  rw [hstatus, Option.some_inj]
  exact Status.code_inj

/-- The levels on `status` and `status_valid` in a step without a result. -/
theorem drives_no_status {o : Outputs} {p : Pins} (hp : o.Drives p) (hnone : o.result = none) :
    p.status = 0b00#2 ∧ p.statusValid = false := by
  obtain ⟨hvalid, hstatus, -⟩ := hp
  rw [hnone] at hvalid hstatus
  exact ⟨hstatus, hvalid⟩

/-- What each result says of the step that showed it (R52's table), with `VALID` and `READING` told apart by
the post-state. -/
theorem step_result_cases {s t : State} {o : Outputs} (hstep : step s = .next t)
    (hout : t.out = some o) :
    o.result = none ∨
    (o.result = some .waiting ∧ o.srcPop = false ∧ SameBuffer s t) ∨
    (o.result = some .invalid ∧ o.srcPop = true ∧ SameBuffer s t ∧ isOversized s = true) ∨
    (o.result = some .valid ∧ o.srcPop = true ∧
      SameBuffer (append Config.hardware s.input.srcData s) t ∧ isComplete t = true) ∨
    (o.result = some .reading ∧ o.srcPop = true ∧
      SameBuffer (append Config.hardware s.input.srcData s) t ∧ isComplete t = false) := by
  rcases step_cases s with ⟨_, e⟩ | ⟨_, _, e⟩ | ⟨_, _, e⟩ | ⟨_, _, _, e⟩ <;>
    (rw [e] at hstep; cases hstep; cases hout)
  · exact .inl rfl
  · exact .inr (.inl ⟨rfl, rfl, rfl, rfl⟩)
  · rcases admitByte_cases Config.hardware s.input.srcData s with
      ⟨hover, hadmit⟩ | ⟨_, hcomplete, hadmit⟩ | ⟨_, hcomplete, hadmit⟩ <;> rw [hadmit]
    · exact .inr (.inr (.inl ⟨rfl, rfl, ⟨rfl, rfl⟩, hover⟩))
    · exact .inr (.inr (.inr (.inl ⟨rfl, rfl, ⟨rfl, rfl⟩, hcomplete⟩)))
    · exact .inr (.inr (.inr (.inr ⟨rfl, rfl, ⟨rfl, rfl⟩, hcomplete⟩)))
  · exact .inl rfl

/-- Settles O39: a result is shown exactly in a `POLL` step, its code is on the pins, and what it says of the
step is `step_result_cases` at that result. -/
theorem statusOnlyInPollSteps : Obligations.StatusOnlyInPollSteps := by
  intro s t o p hstep hout hp
  obtain ⟨hresult, hpop⟩ := step_ports hstep hout
  have hcases := step_result_cases hstep hout
  refine ⟨?_, hresult, fun hno => ?_, fun hrst hop => ?_, fun hw => ?_, fun hr => ?_, fun hv => ?_,
    fun hi => ?_⟩
  · rw [hp.1, hresult]
  · exact drives_no_status hp (Option.not_isSome_iff_eq_none.mp fun h => hno (hresult.mp h))
  · have hcode := drives_status_iff hp (hresult.mpr ⟨hrst, hop⟩)
    exact ⟨hcode .waiting, hcode .reading, hcode .valid, hcode .invalid⟩
  · obtain ⟨hnopop, hsame⟩ : o.srcPop = false ∧ SameBuffer s t := by simpa [hw] using hcases
    obtain ⟨hrst, hop⟩ := hresult.mp (by rw [hw]; rfl)
    have havail : s.input.srcAvail ≠ true := fun h => by
      simp [hpop.mpr ⟨hrst, hop, h⟩] at hnopop
    exact ⟨Bool.eq_false_iff.mpr havail, hnopop, hsame⟩
  · simpa [hr] using hcases
  · simpa [hv, isComplete_iff] using hcases
  · simpa [hi] using hcases

end Sys2Proof.Machine
end

section
/-! PROOFS. The Packet Buffer's commands and APPEND (40_packet_buffer.md R75 to R80): what a step without a reset
can do to the buffer, the flags as bounds on `size`, and what `IDLE`, `RESET` and a `POLL.BYTE` at capacity leave. -/

namespace Sys2Proof.Machine

open Sys2Proof.Safety

theorem exec_idle (s : State) : exec .idle s = .next (finish s none false s) := rfl

theorem exec_reset (s : State) : exec .reset s = .next (finish s none false (emptyBuffer s)) := rfl

theorem exec_pollByte (b : Byte) (s : State) :
    exec (.pollByte b) s = .next (finish s (some (admitByte Config.hardware b s).2) true
      (admitByte Config.hardware b s).1) := rfl

theorem shows_finish (s t : State) (r : Option Status) (pop : Bool) :
    Shows (finish s r pop t) r pop := ⟨rfl, rfl⟩

theorem lenKnown_iff (s : State) : lenKnown s = true ↔ 2 ≤ s.size := decide_eq_true_iff

theorem lenKnown_eq_false_iff (s : State) : lenKnown s = false ↔ s.size < 2 :=
  decide_eq_false_iff_not.trans Nat.not_le

theorem typeKnown_iff (s : State) : typeKnown s = true ↔ 3 ≤ s.size := decide_eq_true_iff

theorem typeKnown_eq_false_iff (s : State) : typeKnown s = false ↔ s.size < 3 :=
  decide_eq_false_iff_not.trans Nat.not_le

/-- Without a reset, a step leaves the Packet Buffer as it was or is a `POLL.BYTE` that appends its byte to a
buffer that is not oversized. -/
theorem step_appends_or_keeps {s t : State} (hno : asksReset s.input = false)
    (hstep : step s = .next t) :
    SameBuffer s t ∨
      (decode s.input.word = .pollByte s.input.srcData ∧ isOversized s = false ∧
        SameBuffer (append Config.hardware s.input.srcData s) t) := by
  rcases step_cases s with ⟨hreset, _⟩ | ⟨_, _, e⟩ | ⟨_, hpoll, e⟩ | ⟨_, _, _, e⟩
  · simp [hno] at hreset
  · rw [e] at hstep; cases hstep; exact .inl ⟨rfl, rfl⟩
  · rw [e] at hstep; cases hstep
    rw [admitByte_state]
    cases hover : isOversized s with
    | true => exact .inl ⟨rfl, rfl⟩
    | false => exact .inr ⟨hpoll, rfl, rfl, rfl⟩
  · rw [e] at hstep; cases hstep; exact .inl ⟨rfl, rfl⟩

/-- Settles O21: below capacity APPEND is one write at cell `size`, so each flag turns at the one `size` just
below its bound; a step without a reset changes the buffer by APPEND alone. -/
theorem appendStoresOneCellBelowCapacity : Obligations.AppendStoresOneCellBelowCapacity := by
  constructor
  · intro cfg b s hlt
    rw [append_below hlt]
    refine ⟨?_, fun a ha => ?_, rfl, rfl, rfl, fun hlen => ?_, fun htype => ?_⟩
    · rw [Memory.read_write, if_pos rfl]
    · rw [Memory.read_write, if_neg ha]
    · rw [lenKnown_eq_false_iff] at hlen
      rw [lenKnown_iff]
      dsimp only
      omega
    · rw [typeKnown_eq_false_iff] at htype
      rw [typeKnown_iff]
      dsimp only
      omega
  · intro s t hno hstep hchanged
    obtain hsame | ⟨hpoll, -, happend⟩ := step_appends_or_keeps hno hstep
    · exact absurd hsame hchanged
    · exact ⟨_, hpoll, happend⟩

/-- Settles O28: `RESET` empties every buffer, and what it leaves of an empty one is what was there; a step
without a reset only appends. -/
theorem resetHasNoPrecondition : Obligations.ResetHasNoPrecondition := by
  constructor
  · intro s
    refine ⟨_, exec_reset s, ⟨rfl, rfl⟩, ?_⟩
    rintro ⟨hbody, hsize⟩
    exact ⟨hbody.symm, hsize.symm⟩
  · intro s t hno hstep
    obtain ⟨-, hsize⟩ | ⟨-, -, -, hsize⟩ := step_appends_or_keeps hno hstep
    · exact hsize.ge
    · rw [hsize]
      exact (append_grows _ _ s).1

/-- At capacity an admission that is not rejected leaves the state and classifies it as it stands (R76). -/
theorem admitByte_full {cfg : Config} {s : State} (hfull : cfg.maxPacketSize ≤ s.size)
    (hover : isOversized s = false) (b : Byte) :
    admitByte cfg b s = (s, if isComplete s then .valid else .reading) := by
  simp only [admitByte, append_full hfull, hover]
  cases isComplete s <;> rfl

/-- Settles O22: at capacity APPEND is the identity, and so the admission classifies the pre-state. -/
theorem appendAtCapacityDropsTheByte : Obligations.AppendAtCapacityDropsTheByte := by
  refine ⟨fun cfg b s hfull => append_full hfull.ge b, fun b s hfull hover => ?_⟩
  rw [exec_pollByte, admitByte_full hfull.ge hover]
  exact ⟨_, rfl, ⟨rfl, rfl⟩, shows_finish ..⟩

/-- Settles O25: `IDLE` decodes by its `op` field alone, and its meaning only ends the step. -/
theorem idleChangesNothing : Obligations.IdleChangesNothing :=
  ⟨decode_idle, rfl, fun s => ⟨_, exec_idle s, ⟨rfl, rfl⟩, finish_script .., shows_finish ..⟩⟩

/-- Settles O27: after `RESET` the size is 0, which is below the two bytes of a known length and the three of
a known type. -/
theorem resetCommandEmptiesTheBuffer : Obligations.ResetCommandEmptiesTheBuffer := by
  refine ⟨decode_reset, rfl, fun s => ⟨_, exec_reset s, ?_⟩⟩
  have hsize : (finish s none false (emptyBuffer s)).size = 0 := rfl
  have h2 : (finish s none false (emptyBuffer s)).size < 2 := by omega
  have h3 : (finish s none false (emptyBuffer s)).size < 3 := by omega
  exact ⟨hsize, Memory.read_nil, finish_script .., shows_finish .., declaredLength_of_lt h2,
    declaredType_of_lt h3, (lenKnown_eq_false_iff _).mpr h2, (typeKnown_eq_false_iff _).mpr h3,
    isOversized_of_lt h2, isComplete_of_lt h2⟩

end Sys2Proof.Machine
end

section
/-! PROOFS. The Byte Admission Step (41_byte_admission.md R91 to R95, R107): every command ends its step with
outputs, `POLL.WAIT` leaves everything, and `POLL.BYTE` consumes its byte and then rejects or classifies it. -/

namespace Sys2Proof.Machine

open Sys2Proof.Safety

/-- Every command gives the end of a step, so no fault and no refusal. -/
theorem exec_eq_finish (i : Instr) (s : State) :
    ∃ r pop t, exec i s = .next (finish s r pop t) := by
  cases i <;> exact ⟨_, _, _, rfl⟩

/-- Settles O10: a step and a command always end in `finish`, which shows the outputs, and so every run goes
on. -/
theorem everyStepGivesAStateAndOutputs : Obligations.EveryStepGivesAStateAndOutputs := by
  refine ⟨fun s => ?_, fun i s => ?_, run_next⟩
  · obtain ⟨t, hstep⟩ := step_next s
    obtain ⟨-, r, pop, hout⟩ := step_frame hstep
    exact ⟨t, _, hstep, hout⟩
  · obtain ⟨r, pop, t, hexec⟩ := exec_eq_finish i s
    exact ⟨_, _, hexec, finish_out ..⟩

theorem exec_pollWait (s : State) : exec .pollWait s = .next (finish s (some .waiting) false s) := rfl

/-- Steps that all present `POLL.WAIT` leave the Packet Buffer as it was and show `WAITING` each. -/
theorem run_pollWait (n : Nat) {s : State} (hlen : n ≤ s.script.length)
    (hwait : ∀ i ∈ s.script.take n, i.rst = false ∧ decode i.word = .pollWait) :
    ∃ t : State, Host.Core.run Sys2Proof.core n s = .next t ∧ SameBuffer s t ∧
      ∀ r ∈ history n s, r.output.result = some .waiting ∧ r.output.srcPop = false := by
  induction n generalizing s with
  | zero => exact ⟨s, rfl, ⟨rfl, rfl⟩, by simp⟩
  | succ n ih =>
    obtain ⟨i, rest, hscript⟩ := List.exists_cons_of_length_pos (l := s.script) (by omega)
    have hinput : s.input = i := by simp [State.input, hscript]
    simp only [hscript, List.take_succ_cons, List.mem_cons, forall_eq_or_imp] at hwait
    obtain ⟨⟨hrst, hword⟩, hrest⟩ := hwait
    have hstep : step s = .next (finish s (some .waiting) false s) := by
      rw [step_of_not_rst (by rw [hinput, hrst]), hinput, hword, exec_pollWait]
    have htail : (finish s (some .waiting) false s).script = rest := by simp [hscript]
    obtain ⟨t, hrun, hsame, hrecords⟩ := ih (s := finish s (some .waiting) false s)
      (by rw [htail]; simpa [hscript] using hlen) (by rwa [htail])
    rw [run_succ hstep, history_succ hstep (finish_out ..)]
    refine ⟨t, hrun, hsame, ?_⟩
    rintro r (_ | ⟨_, hr⟩)
    · exact ⟨rfl, rfl⟩
    · exact hrecords r hr

/-- Settles O26: `avail = 0` decodes to `POLL.WAIT`, whose meaning only ends the step, and a run of such steps
is an induction on its length. -/
theorem pollWaitReturnsWaiting : Obligations.PollWaitReturnsWaiting :=
  ⟨decode_poll false, rfl,
    fun s => ⟨_, exec_pollWait s, ⟨rfl, rfl⟩, finish_script .., shows_finish ..⟩,
    fun n _ hlen hwait => run_pollWait n hlen hwait⟩

theorem admitByte_of_isOversized {s : State} (hover : isOversized s = true) (cfg : Config) (b : Byte) :
    admitByte cfg b s = (s, .invalid) := by
  rw [admitByte, if_pos hover]

/-- An admission that is not rejected appends, and classifies what APPEND leaves (R94, R95). -/
theorem admitByte_of_not_isOversized {s : State} (hover : isOversized s = false) (cfg : Config)
    (b : Byte) :
    admitByte cfg b s =
      (append cfg b s, if isComplete (append cfg b s) then .valid else .reading) := by
  simp only [admitByte, hover]
  cases isComplete (append cfg b s) <;> rfl

theorem admitByte_result_ne_waiting (cfg : Config) (b : Byte) (s : State) :
    (admitByte cfg b s).2 ≠ .waiting := by
  rcases admitByte_cases cfg b s with ⟨_, hadmit⟩ | ⟨_, _, hadmit⟩ | ⟨_, _, hadmit⟩ <;>
    simp [hadmit]

/-- Settles O30: the step shows `src_pop` whatever the admission of the byte answers, and that answer is never
`WAITING`. -/
theorem pollByteAlwaysConsumes : Obligations.PollByteAlwaysConsumes := fun d s =>
  ⟨_, _, exec_pollByte d s, shows_finish .., admitByte_result_ne_waiting _ d s, finish_script ..⟩

/-- Settles O31: the admission of a byte gives an oversized state back, and the predicates read its Packet
Buffer alone. -/
theorem pollByteRejectsWhenOversized : Obligations.PollByteRejectsWhenOversized := by
  intro d s hover
  have hsame : SameBuffer s (finish s (some .invalid) true s) := ⟨rfl, rfl⟩
  rw [exec_pollByte, admitByte_of_isOversized hover]
  exact ⟨_, rfl, hsame, finish_script .., shows_finish .., rfl, rfl,
    (isOversized_congr hsame).trans hover, isComplete_congr hsame⟩

/-- Settles O33: the result is `VALID` exactly when APPEND leaves a complete buffer, and the post-state has
that buffer. -/
theorem pollByteClassifiesThePostState : Obligations.PollByteClassifiesThePostState := by
  intro d s hover
  rw [exec_pollByte, admitByte_of_not_isOversized hover]
  refine ⟨_, rfl, fun hknown => ?_, fun hother => ?_⟩
  · have hcomplete : isComplete (append Config.hardware d s) = true := (isComplete_iff _).mpr hknown
    simp only [hcomplete, if_true]
    exact shows_finish ..
  · have hcomplete : isComplete (append Config.hardware d s) = false := by
      rw [Bool.eq_false_iff, Ne, isComplete_iff]
      rintro ⟨len, hlen, hsize⟩
      exact hother len hlen hsize
    simp only [hcomplete]
    exact shows_finish ..

end Sys2Proof.Machine
end

section
/-! PROOFS. The bytes of a run without a reset (41_byte_admission.md R99): `size` grows by at most one per
consumed byte, so the number of bytes consumed bounds what a result can be. -/

namespace Sys2Proof.Machine

open Sys2Proof.Safety

/-- The first step of a run without a reset, and the run that goes on from it. -/
theorem noReset_succ {n : Nat} {s : State} (hno : NoReset (n + 1) s) :
    ∃ (u : State) (o : Outputs), step s = .next u ∧ u.out = some o ∧ asksReset s.input = false ∧
      NoReset n u ∧ history (n + 1) s = ⟨s.input, o⟩ :: history n u := by
  obtain ⟨u, hstep⟩ := step_next s
  obtain ⟨-, r, pop, hout⟩ := step_frame hstep
  have hhistory := history_succ hstep hout n
  rw [NoReset, hhistory] at hno
  obtain ⟨hfirst, hrest⟩ := List.forall_mem_cons.mp hno
  exact ⟨u, _, hstep, hout, hfirst, hrest, hhistory⟩

/-- Every record of a run is that of one step. -/
theorem exists_step_of_mem_history {n : Nat} {s : State} {r : Record} (hr : r ∈ history n s) :
    ∃ u t, step u = .next t ∧ t.out = some r.output ∧ r.input = u.input := by
  induction n generalizing s with
  | zero => simp at hr
  | succ n ih =>
    obtain ⟨t, hstep⟩ := step_next s
    obtain ⟨-, _, _, hout⟩ := step_frame hstep
    rw [history_succ hstep hout] at hr
    rcases List.mem_cons.mp hr with rfl | hr
    · exact ⟨s, t, hstep, hout, rfl⟩
    · exact ih hr

theorem consumedBytes_cons (r : Record) (h : List Record) :
    consumedBytes (r :: h) =
      if r.output.srcPop then r.input.srcData :: consumedBytes h else consumedBytes h := by
  cases hpop : r.output.srcPop <;> simp [consumedBytes, hpop]

theorem byteResults_cons (r : Record) (h : List Record) :
    byteResults (r :: h) =
      if r.output.srcPop then r.output.result.toList ++ byteResults h else byteResults h := by
  cases hpop : r.output.srcPop <;> cases hres : r.output.result <;> simp [byteResults, hpop, hres]

theorem length_byteResults_le (h : List Record) :
    (byteResults h).length ≤ (consumedBytes h).length := by
  induction h with
  | nil => exact Nat.le_refl 0
  | cons r h ih =>
    rw [byteResults_cons, consumedBytes_cons]
    cases r.output.srcPop <;> cases r.output.result <;> simp <;> omega

theorem mem_byteResults {h : List Record} {r : Record} {x : Status} (hr : r ∈ h)
    (hpop : r.output.srcPop = true) (hx : r.output.result = some x) : x ∈ byteResults h :=
  List.mem_filterMap.mpr ⟨r, hr, by rw [if_pos hpop, hx]⟩

/-- A step without a reset counts at most the byte it consumes. -/
theorem step_size_le {s t : State} {o : Outputs} (hno : asksReset s.input = false)
    (hstep : step s = .next t) (hout : t.out = some o) :
    t.size ≤ s.size + if o.srcPop then 1 else 0 := by
  rcases step_cases s with ⟨hreset, _⟩ | ⟨_, _, e⟩ | ⟨_, _, e⟩ | ⟨_, _, _, e⟩
  · simp [hno] at hreset
  · rw [e] at hstep; cases hstep; exact Nat.le_add_right ..
  · rw [e] at hstep; cases hstep; cases hout
    have happend := (append_grows Config.hardware s.input.srcData s).2.1
    simp only [finish_size, outputs_srcPop, if_true, admitByte_state]
    split
    · exact Nat.le_add_right ..
    · exact happend
  · rw [e] at hstep; cases hstep; exact Nat.le_add_right ..

/-- Over a run without a reset, `size` grows by at most the number of bytes consumed. -/
theorem run_size_le {n : Nat} {s t : State} (hno : NoReset n s)
    (hrun : Host.Core.run Sys2Proof.core n s = .next t) :
    t.size ≤ s.size + (consumedBytes (history n s)).length := by
  induction n generalizing s with
  | zero => cases hrun; exact Nat.le_add_right ..
  | succ n ih =>
    obtain ⟨u, o, hstep, hout, hfirst, hrest, hhistory⟩ := noReset_succ hno
    rw [run_succ hstep] at hrun
    have hu := step_size_le hfirst hstep hout
    have ht := ih hrest hrun
    rw [hhistory, consumedBytes_cons]
    cases hpop : o.srcPop <;> simp [hpop] at hu ⊢ <;> omega

/-- A step that consumes no byte shows `WAITING` or nothing. -/
theorem step_result_of_not_srcPop {s t : State} {o : Outputs} {x : Status}
    (hstep : step s = .next t) (hout : t.out = some o) (hpop : o.srcPop = false)
    (hx : o.result = some x) : x = .waiting := by
  obtain ⟨hwaiting, -⟩ : x = .waiting ∧ SameBuffer s t := by
    simpa [hpop, hx] using step_result_cases hstep hout
  exact hwaiting

/-- The `j`-th byte result of a run without a reset is that of a step whose pre-state has counted at most the
`j` bytes consumed before it. -/
theorem exists_step_of_byteResults {n j : Nat} {s : State} {x : Status} (hno : NoReset n s)
    (hx : (byteResults (history n s))[j]? = some x) :
    ∃ (u t : State) (o : Outputs), step u = .next t ∧ t.out = some o ∧
      asksReset u.input = false ∧ o.srcPop = true ∧ o.result = some x ∧ u.size ≤ s.size + j := by
  induction n generalizing s j with
  | zero => simp [byteResults] at hx
  | succ n ih =>
    obtain ⟨u, o, hstep, hout, hfirst, hrest, hhistory⟩ := noReset_succ hno
    have hsize := step_size_le hfirst hstep hout
    rw [hhistory, byteResults_cons] at hx
    cases hpop : o.srcPop with
    | false =>
      obtain ⟨v, w, p, hv, hw, hfree, hp, hres, hle⟩ := ih hrest (by simpa [hpop] using hx)
      exact ⟨v, w, p, hv, hw, hfree, hp, hres, by simp [hpop] at hsize; omega⟩
    | true =>
      obtain ⟨hresult, hports⟩ := step_ports hstep hout
      obtain ⟨hrst, hop, -⟩ := hports.mp hpop
      obtain ⟨y, hy⟩ := Option.isSome_iff_exists.mp (hresult.mpr ⟨hrst, hop⟩)
      simp only [hpop, hy, if_true, Option.toList_some, List.singleton_append] at hx hsize
      cases j with
      | zero =>
        obtain rfl : y = x := Option.some.inj hx
        exact ⟨s, u, o, hstep, hout, hfirst, hpop, hy, Nat.le_refl _⟩
      | succ j =>
        obtain ⟨v, w, p, hv, hw, hfree, hp, hres, hle⟩ := ih hrest hx
        exact ⟨v, w, p, hv, hw, hfree, hp, hres, by omega⟩

/-- `INVALID` needs two bytes counted before the step. -/
theorem two_le_size_of_invalid {s t : State} {o : Outputs} (hstep : step s = .next t)
    (hout : t.out = some o) (hx : o.result = some .invalid) : 2 ≤ s.size := by
  obtain ⟨-, -, hover⟩ : o.srcPop = true ∧ SameBuffer s t ∧ isOversized s = true := by
    simpa [hx] using step_result_cases hstep hout
  obtain ⟨len, hlen, -⟩ := (isOversized_iff s).mp hover
  exact two_le_of_declaredLength hlen

/-- `VALID` needs two bytes counted after the step. -/
theorem two_le_size_of_valid {s t : State} {o : Outputs} (hstep : step s = .next t)
    (hout : t.out = some o) (hx : o.result = some .valid) : 2 ≤ t.size := by
  obtain ⟨-, -, hcomplete⟩ : o.srcPop = true ∧
      SameBuffer (append Config.hardware s.input.srcData s) t ∧ isComplete t = true := by
    simpa [hx] using step_result_cases hstep hout
  obtain ⟨len, hlen, -⟩ := (isComplete_iff t).mp hcomplete
  exact two_le_of_declaredLength hlen

section FromEmptyBuffer

variable {n : Nat} {s : State} (hempty : EmptyBuffer s) (hno : NoReset n s)
include hempty hno

/-- `INVALID` is not among the first two byte results. -/
theorem byteResults_ne_invalid {j : Nat} (hj : j < 2) :
    (byteResults (history n s))[j]? ≠ some .invalid := by
  intro hx
  obtain ⟨u, t, o, hstep, hout, -, -, hres, hle⟩ := exists_step_of_byteResults hno hx
  have h2 := two_le_size_of_invalid hstep hout hres
  have hsize := hempty.2
  omega

/-- The first byte result is `READING`. -/
theorem byteResults_zero {x : Status} (hx : (byteResults (history n s))[0]? = some x) :
    x = .reading := by
  obtain ⟨u, t, o, hstep, hout, hfirst, hpop, hres, hle⟩ := exists_step_of_byteResults hno hx
  have ht := step_size_le hfirst hstep hout
  have hsize := hempty.2
  simp only [hpop, if_true] at ht
  cases x with
  | reading => rfl
  | waiting =>
    have hcases := step_result_cases hstep hout
    simp [hpop, hres] at hcases
  | valid =>
    have h2 := two_le_size_of_valid hstep hout hres
    omega
  | invalid => exact absurd hx (byteResults_ne_invalid hempty hno (by omega))

/-- With fewer than two bytes consumed, a result is the one byte result there can be, or `WAITING`. -/
theorem result_of_consumed_lt_two (hfew : (consumedBytes (history n s)).length < 2) {r : Record}
    (hr : r ∈ history n s) {x : Status} (hx : r.output.result = some x) :
    x = .reading ∨ x = .waiting := by
  cases hpop : r.output.srcPop with
  | false =>
    obtain ⟨u, t, hstep, hout, -⟩ := exists_step_of_mem_history hr
    exact .inr (step_result_of_not_srcPop hstep hout hpop hx)
  | true =>
    obtain ⟨j, hj⟩ := List.mem_iff_getElem?.mp (mem_byteResults hr hpop hx)
    have hlt := (List.getElem?_eq_some_iff.mp hj).1
    have hle := length_byteResults_le (history n s)
    obtain rfl : j = 0 := by omega
    exact .inl (byteResults_zero hempty hno hj)

end FromEmptyBuffer

/-- Settles O45: from an empty buffer the bytes consumed bound `size`, `VALID` needs two bytes after its step
and `INVALID` two before it. -/
theorem earliestResults : Obligations.EarliestResults := by
  intro n s t hempty hno hrun
  refine ⟨fun hfew => ⟨declaredLength_of_lt ?_, ?_⟩, fun x hx => byteResults_zero hempty hno hx, ?_⟩
  · have hle := run_size_le hno hrun
    have hsize := hempty.2
    omega
  · exact fun r hr x hx => result_of_consumed_lt_two hempty hno hfew hr hx
  · rintro x hx rfl
    exact byteResults_ne_invalid hempty hno (by omega) hx

end Sys2Proof.Machine
end

section
/-! PROOFS. The exceptional results (60_exceptions.md R123, R128): what a step that shows `INVALID` leaves, how a
buffer becomes oversized, and the byte that is dropped at capacity. -/

namespace Sys2Proof.Machine

open Sys2Proof.Safety

/-- A step that shows `INVALID` consumes its byte and leaves the Packet Buffer as it was. -/
theorem sameBuffer_of_shows_invalid {s t : State} {pop : Bool} (hstep : step s = .next t)
    (hshows : Shows t (some .invalid) pop) : SameBuffer s t ∧ pop = true := by
  obtain ⟨-, r, p, hout⟩ := step_frame hstep
  obtain ⟨hresult, hpop⟩ : r = some .invalid ∧ p = pop := by simpa [Shows, hout] using hshows
  obtain ⟨hconsumed, hsame, -⟩ : p = true ∧ SameBuffer s t ∧ isOversized s = true := by
    simpa [hresult] using step_result_cases hstep hout
  exact ⟨hsame, hpop.symm.trans hconsumed⟩

/-- A buffer becomes oversized only by an admission that shows `READING`: a reset leaves no length known,
a `VALID` step leaves a complete buffer, and every other step leaves the buffer as it was. -/
theorem shows_reading_of_becomes_oversized {s t : State} (hstep : step s = .next t)
    (hbefore : isOversized s = false) (hafter : isOversized t = true) :
    Shows t (some .reading) true := by
  have hchanged : ¬ SameBuffer s t := fun hsame => by
    simp [isOversized_congr hsame, hbefore] at hafter
  rcases step_cases s with ⟨_, e⟩ | ⟨_, _, e⟩ | ⟨_, _, e⟩ | ⟨_, _, _, e⟩ <;>
    (rw [e] at hstep; cases hstep)
  · have hempty := isOversized_of_lt (s := finish s none false (emptyBuffer s)) Nat.zero_lt_two
    simp [hempty] at hafter
  · exact absurd ⟨rfl, rfl⟩ hchanged
  · rcases admitByte_cases Config.hardware s.input.srcData s with
      ⟨hover, _⟩ | ⟨_, hcomplete, hadmit⟩ | ⟨_, _, hadmit⟩
    · simp [hbefore] at hover
    · rw [hadmit] at hafter
      have hno := not_isOversized_of_isComplete hcomplete
      exact absurd (hno.symm.trans hafter) Bool.false_ne_true
    · rw [hadmit]
      exact shows_finish ..
  · exact absurd ⟨rfl, rfl⟩ hchanged

/-- Settles O36: `INVALID` is shown by a rejection alone, and the step that makes the buffer oversized is an
admission before it. -/
theorem invalidStepChangesNothing : Obligations.InvalidStepChangesNothing := fun _ _ hstep =>
  ⟨fun _ hshows => sameBuffer_of_shows_invalid hstep hshows,
    fun hbefore hafter => shows_reading_of_becomes_oversized hstep hbefore hafter⟩

section KnownLength

variable {s : State} {len : Length} (hlen : declaredLength s = some len)
include hlen

theorem isOversized_of_declaredLength : isOversized s = decide (len.toNat < s.size) := by
  simp only [isOversized, hlen]

theorem isComplete_of_declaredLength : isComplete s = decide (s.size = len.toNat) := by
  simp only [isComplete, hlen]

end KnownLength

/-- Settles O38: at capacity the length is known, APPEND is the identity, and the byte is dropped with the
result that the pre-state classifies. -/
theorem truncationIsSilent : Obligations.TruncationIsSilent := by
  intro d s hinv hfull hover
  have h2 : 2 ≤ s.size := by rw [hfull]; decide
  obtain ⟨hi, lo, -, -, hlen⟩ := bufferInv_declaredLength hinv h2
  have hle : s.size ≤ (hi ++ lo : Length).toNat := by
    simpa [isOversized_of_declaredLength hlen] using hover
  have hcomplete := isComplete_of_declaredLength hlen
  rw [exec_pollByte, admitByte_full hfull.ge hover]
  refine ⟨_, _, rfl, hlen, hfull ▸ hle, ⟨rfl, rfl⟩, fun heq => ?_, fun hlt => ?_⟩
  · rw [hcomplete, decide_eq_true (hfull.trans heq.symm)]
    exact shows_finish ..
  · rw [hcomplete, decide_eq_false (hfull.trans_lt hlt).ne]
    exact shows_finish ..

end Sys2Proof.Machine
end

section
/-! PROOFS. The hardware reset (70_reset_and_hazards.md R140): `rst` held over several steps keeps the Packet
Buffer empty from its first step on. -/

namespace Sys2Proof.Machine

open Sys2Proof.Safety

/-- `rst` scripted for `n + 1` steps is asserted in the first one and scripted for the `n` steps after it. -/
theorem rst_held_succ {n : Nat} {s : State} (hlen : n + 1 ≤ s.script.length)
    (hrst : ∀ i ∈ s.script.take (n + 1), i.rst = true) :
    s.input.rst = true ∧ n ≤ s.script.tail.length ∧ ∀ i ∈ s.script.tail.take n, i.rst = true := by
  obtain ⟨i, rest, hscript⟩ := List.exists_cons_of_length_pos (l := s.script) (by omega)
  rw [hscript] at hlen hrst
  obtain ⟨hfirst, hrest⟩ := List.forall_mem_cons.mp hrst
  rw [State.input, hscript]
  exact ⟨hfirst, Nat.le_of_succ_le_succ hlen, hrest⟩

/-- Steps that all assert `rst` end in an empty buffer, if there is one such step or the buffer was empty
before. -/
theorem run_rst (n : Nat) {s : State} (hlen : n ≤ s.script.length)
    (hrst : ∀ i ∈ s.script.take n, i.rst = true) :
    ∃ t : State, Host.Core.run Sys2Proof.core n s = .next t ∧
      (0 < n ∨ EmptyBuffer s → EmptyBuffer t) := by
  induction n generalizing s with
  | zero => exact ⟨s, rfl, fun h => h.resolve_left (Nat.lt_irrefl 0)⟩
  | succ n ih =>
    obtain ⟨hfirst, hlen', hrest⟩ := rst_held_succ hlen hrst
    obtain ⟨t, hrun, hkeeps⟩ := ih (s := hardwareReset s) hlen' hrest
    rw [run_succ (step_of_rst hfirst)]
    exact ⟨t, hrun, fun _ => hkeeps (.inr ⟨rfl, rfl⟩)⟩

/-- Settles O8: a step that asserts `rst` ends with the emptied buffer, as `RESET` does, before any command is
decoded, and an empty buffer stays empty under a held `rst`. -/
theorem hardwareResetOverridesCommand : Obligations.HardwareResetOverridesCommand := by
  refine ⟨fun s hrst => ?_, fun n s hlen hrst => ?_⟩
  · exact ⟨_, _, step_of_rst hrst, ⟨rfl, rfl⟩, hardwareReset_script s, shows_finish .., exec_reset s,
      rfl, rfl⟩
  · obtain ⟨t, hrun, hempty⟩ := run_rst n hlen hrst
    exact ⟨t, hrun, fun hpos => hempty (.inl hpos)⟩

end Sys2Proof.Machine
end

section
/-! PROOFS. Decoding and encoding (30_encoding.md section 3): a word lies in the row its `op` field names, and
what it decodes to encodes to the word without its ignored bits. -/

namespace Sys2Proof

/-- A word is one of four kinds by its `op` field, with its `avail` and `data` fields free (R51). -/
theorem word_cases (w : CommandWord) :
    ∃ a d, w = commandWord 0b00#2 a d ∨ w = commandWord 0b01#2 a d ∨
      w = commandWord 0b10#2 a d ∨ w = commandWord 0b11#2 a d := by
  have hop : ∀ op : BitVec 2, op = 0b00#2 ∨ op = 0b01#2 ∨ op = 0b10#2 ∨ op = 0b11#2 := by decide
  refine ⟨availField w, dataField w, ?_⟩
  rcases hop (opField w) with h | h | h | h <;> simp [← h, commandWord_fields]

/-- Every command is what its word decodes to. -/
theorem decode_encode (i : Instr) : decode (encode i) = i := by
  cases i with
  | idle => exact decode_idle false 0#8
  | pollWait => exact decode_poll false 0#8
  | pollByte d => exact decode_poll true d
  | reset => exact decode_reset false 0#8
  | reserved ignored =>
    have hop : opField (0b11#2 ++ ignored) = 0b11#2 := BitVec.extractLsb'_append_eq_left
    have hignored : (0b11#2 ++ ignored).extractLsb' 0 9 = ignored := BitVec.extractLsb'_append_eq_right
    simp [encode, decode, hop, hignored]

/-- Below 2048 a number is decoded as the word it is. -/
theorem decodeNat_of_lt {w : Nat} (h : w < 2048) : decodeNat w = .ok (decode (BitVec.ofNat 11 w)) :=
  if_pos h

theorem decodeTableWord_toNat (w : CommandWord) : decodeTableWord 16 w.toNat = some (decode w) := by
  have hw : w.toNat < 2048 := w.isLt
  rw [decodeTableWord, Nat.mod_eq_of_lt (by omega), decodeNat_of_lt hw, BitVec.ofNat_toNat,
    BitVec.setWidth_eq]

theorem encode_pollByte (d : Byte) : encode (.pollByte d) = 0x300#11 + d.setWidth 11 := by
  revert d; decide

/-- A word without the bits that its command ignores: those outside the mask of the command's row, but for
`POLL.BYTE` and the reserved command, which carry them. -/
def withoutIgnored (i : Instr) (w : CommandWord) : CommandWord :=
  match i with
  | .idle => w &&& 0x600#11
  | .pollWait => w &&& 0x700#11
  | .pollByte _ => w
  | .reset => w &&& 0x600#11
  | .reserved _ => w

/-- The mask `0x700` clears the `data` field. -/
theorem commandWord_masked (op : BitVec 2) (a : Bool) (d : Byte) :
    commandWord op a d &&& 0x700#11 = commandWord op a 0#8 := by
  have h : ∀ i < 11, (0x700#11).getLsbD i = decide (8 ≤ i) := by decide
  apply BitVec.eq_of_getLsbD_eq
  intro i hi
  rw [BitVec.getLsbD_and, getLsbD_commandWord, getLsbD_commandWord, h i hi]
  by_cases h8 : i < 8
  · simp [h8]
  · simp [h8, Nat.not_lt.mp h8]

/-- No mask of the opcode table looks at the `data` field. -/
theorem commandWord_and {m : CommandWord} (hm : 0x700#11 &&& m = m) (op : BitVec 2) (a : Bool)
    (d : Byte) : commandWord op a d &&& m = commandWord op a 0#8 &&& m := by
  rw [← commandWord_masked op a d, BitVec.and_assoc, hm]

theorem encode_decode (w : CommandWord) : encode (decode w) = withoutIgnored (decode w) w := by
  obtain ⟨a, d, rfl | rfl | rfl | rfl⟩ := word_cases w
  · rw [decode_idle]
    change 0x000#11 = commandWord 0b00#2 a d &&& 0x600#11
    rw [commandWord_and (by decide)]
    revert a; decide
  · rw [decode_poll]
    cases a with
    | true => rfl
    | false =>
      change 0x200#11 = commandWord 0b01#2 false d &&& 0x700#11
      rw [commandWord_masked]
      decide
  · rw [decode_reset]
    change 0x400#11 = commandWord 0b10#2 a d &&& 0x600#11
    rw [commandWord_and (by decide)]
    revert a; decide
  · rw [decode_reserved]; rfl

/-- Settles O3: each command decodes from its word, and each of the four classes of words encodes back up to its
ignored bits. -/
theorem decodeOfEncodeIsTheCommand : Obligations.DecodeOfEncodeIsTheCommand := by
  refine ⟨fun i => ⟨decode_encode i, ?_⟩, fun w d => ⟨fun h => ?_, fun h => ?_⟩, fun w => ?_⟩
  · rw [decodeTableWord_toNat, decode_encode]
  · have hword := encode_decode w
    rw [h] at hword
    exact hword.symm.trans (encode_pollByte d)
  · rw [h, ← encode_pollByte, decode_encode]
  · exact (encode_decode w).trans (by unfold withoutIgnored; rfl)

theorem selects_masked {r : OpcodeRow} (hr : r ∈ opcodeRows) (w : CommandWord) :
    r.selects (w &&& 0x700#11) = r.selects w := by
  have hmask : ∀ r ∈ opcodeRows, 0x700#11 &&& r.mask = r.mask := by decide
  rw [OpcodeRow.selects, OpcodeRow.selects, BitVec.and_assoc, hmask r hr]

/-- Settles O1: no row looks at the `data` field, and the eight words with `data` 0 are evaluated. -/
theorem everyWordSelectsTheRowOfItsCommand : Obligations.EveryWordSelectsTheRowOfItsCommand := by
  intro w
  obtain ⟨a, d, hw⟩ := word_cases w
  rw [← List.filter_congr fun r hr => selects_masked hr w]
  rcases hw with rfl | rfl | rfl | rfl <;> rw [commandWord_masked]
  · rw [decode_idle]; cases a <;> rfl
  · rw [decode_poll]; cases a <;> rfl
  · rw [decode_reset]; cases a <;> rfl
  · rw [decode_reserved]; cases a <;> rfl

/-- Settles O2: the twelve words are fixed, and the decoder is evaluated on each. -/
theorem writtenOutWordsDecode : Obligations.WrittenOutWordsDecode := by
  unfold Obligations.WrittenOutWordsDecode; decide

/-- Settles O5: the decoder's only test is the width, and below it the number is the word. -/
theorem widerThanElevenBitsIsRejected : Obligations.WiderThanElevenBitsIsRejected := by
  intro nbits w
  rcases Nat.lt_or_ge (w % 2 ^ nbits) 2048 with hlt | hge
  · simp [decodeTableWord, decodeNat_of_lt hlt, hlt, eq_comm]
  · simp [decodeTableWord, decodeNat, Nat.not_lt.mpr hge, hge]

end Sys2Proof
end

section
/-! PROOFS. What a step can do to the state (10_state.md sections 2 and 5): it keeps the invariant, changes the
buffer by three events alone, and depends on the valid bytes and the inputs only. -/

namespace Sys2Proof.Machine

open Sys2Proof.Safety

/-- Settles O57: every step keeps the invariant, which gives the canonical form. -/
theorem stepAtEveryCapacityKeepsBufferInv : Obligations.StepAtEveryCapacityKeepsBufferInv :=
  fun _ _ _ hinv hstep =>
    have hinv' := bufferInv_stepAt hinv hstep
    ⟨hinv', bufferInv_wf hinv'⟩

/-- Settles O12: this hardware's step is the step at its capacity. -/
theorem stepKeepsBufferInv : Obligations.StepKeepsBufferInv := fun s t hinv hstep =>
  stepAtEveryCapacityKeepsBufferInv Config.hardware s t hinv ((step_eq_stepAt s).symm.trans hstep)

/-- Settles O11: the reset state's buffer is empty. -/
theorem resetMeetsBufferInv : Obligations.ResetMeetsBufferInv := bufferInv_empty ⟨rfl, rfl⟩

/-- The end of a step keeps of the state after the command its Packet Buffer alone. -/
theorem finish_congr {t u : State} (h : SameBuffer t u) (s : State) (r : Option Status) (pop : Bool) :
    finish s r pop u = finish s r pop t := by
  obtain ⟨hbody, hsize⟩ := h
  simp only [finish, hbody, hsize]

/-- Settles O14: the recorded outputs are no part of the Packet Buffer and of the inputs, which fix the step, and
the step overwrites them. -/
theorem outputsAreNotState : Obligations.OutputsAreNotState := by
  intro s o
  obtain ⟨r, pop, s', t', hbuffer, hs, ht⟩ :=
    step_congr (s := s) (t := { s with out := o }) ⟨rfl, rfl⟩ rfl rfl
  rw [hs, ht]
  exact congrArg Host.Outcome.next (finish_congr hbuffer s r pop)

/-- Settles O15: without either reset a step appends or keeps the buffer. -/
theorem onlyThreeEventsChangeTheBuffer : Obligations.OnlyThreeEventsChangeTheBuffer := by
  intro s t hstep
  refine ⟨(step_frame hstep).1, fun hchanged => ?_⟩
  cases hasks : asksReset s.input with
  | true =>
    obtain hrst | hreset : s.input.rst = true ∨ decode s.input.word = .reset := by
      simpa [asksReset] using hasks
    · exact .inl hrst
    · exact .inr (.inl hreset)
  | false =>
    obtain hsame | ⟨hpoll, hover, happend⟩ := step_appends_or_keeps hasks hstep
    · exact absurd hsame hchanged
    · exact .inr (.inr ⟨_, hpoll, hover, happend⟩)

/-- Two states read alike: the same `size` and the same bytes below it, whatever their other cells hold. -/
def SameReads (s t : State) : Prop := t.size = s.size ∧ ∀ a, memRead1 t a = memRead1 s a

theorem sameReads_of_below {s t : State} (hsize : s.size = t.size)
    (hbytes : ∀ a < s.size, memRead1 s a = memRead1 t a) : SameReads s t := by
  refine ⟨hsize.symm, fun a => ?_⟩
  rcases Nat.lt_or_ge a s.size with hlt | hge
  · exact (hbytes a hlt).symm
  · rw [memRead1_of_size_le hge, memRead1_of_size_le (hsize ▸ hge)]

/-- The bytes that read as valid after APPEND. -/
theorem memRead1_append (cfg : Config) (b : Byte) (s : State) (a : Nat) :
    memRead1 (append cfg b s) a =
      if s.size < cfg.maxPacketSize ∧ a = s.size then some b else memRead1 s a := by
  rcases Nat.lt_or_ge s.size cfg.maxPacketSize with hlt | hge
  · simp only [append_below hlt, memRead1, Memory.read_write, hlt, true_and]
    grind
  · simp [append_full hge, Nat.not_lt.mpr hge]

section SameReads

variable {s t : State} (h : SameReads s t)
include h

theorem SameReads.declaredLength : declaredLength t = declaredLength s := by
  simp only [Machine.declaredLength, memRead2, h.1, h.2]

theorem SameReads.declaredType : declaredType t = declaredType s := by
  simp only [Machine.declaredType, h.1, h.2]

theorem SameReads.isOversized : isOversized t = isOversized s :=
  isOversized_eq_of_declaredLength_eq h.declaredLength h.1

theorem SameReads.append (cfg : Config) (b : Byte) :
    SameReads (append cfg b s) (append cfg b t) := by
  refine ⟨?_, fun a => ?_⟩
  · rw [append_size, append_size, h.1]
  · rw [memRead1_append, memRead1_append, h.1, h.2]

theorem SameReads.admitByte (cfg : Config) (b : Byte) :
    SameReads (admitByte cfg b s).1 (admitByte cfg b t).1 ∧
      (admitByte cfg b t).2 = (admitByte cfg b s).2 := by
  have happend := h.append cfg b
  have hcomplete := isComplete_eq_of_declaredLength_eq happend.declaredLength happend.1
  simp only [Machine.admitByte, h.isOversized, hcomplete]
  split
  · exact ⟨h, rfl⟩
  · split <;> exact ⟨happend, rfl⟩

/-- States that read alike show the same outputs in a step with the same inputs. -/
theorem SameReads.outputs (hinput : t.input = s.input) (r : Option Status) (pop : Bool) :
    outputs t r pop = outputs s r pop := by
  simp only [Machine.outputs, lenKnown, typeKnown, h.1, h.2, h.declaredLength, h.declaredType,
    h.isOversized, hinput]

/-- A step with the same inputs gives the same result and `src_pop` and leaves states that read alike. -/
theorem SameReads.step (hinput : t.input = s.input) :
    ∃ (r : Option Status) (pop : Bool) (s' t' : State), SameReads s' t' ∧
      step s = .next (finish s r pop s') ∧ step t = .next (finish t r pop t') := by
  cases hr : s.input.rst with
  | true =>
    exact ⟨_, _, emptyBuffer s, emptyBuffer t, ⟨rfl, fun _ => rfl⟩, step_of_rst hr,
      step_of_rst (by rw [hinput, hr])⟩
  | false =>
    rw [step_of_not_rst hr, step_of_not_rst (by rw [hinput, hr]), hinput]
    cases decode s.input.word with
    | idle | pollWait | reserved _ => exact ⟨_, _, s, t, h, rfl, rfl⟩
    | reset => exact ⟨_, _, emptyBuffer s, emptyBuffer t, ⟨rfl, fun _ => rfl⟩, rfl, rfl⟩
    | pollByte d =>
      obtain ⟨hreads, hresult⟩ := h.admitByte Config.hardware d
      exact ⟨_, _, _, _, hreads, rfl, by rw [← hresult]; rfl⟩

end SameReads

/-- Settles O16: a step reads its state's valid bytes and inputs alone, so states that read alike stay so. -/
theorem equalValidBytesAreIndistinguishable : Obligations.EqualValidBytesAreIndistinguishable := by
  intro s t hsize hbytes hscript
  have hreads := sameReads_of_below hsize hbytes
  have hinput : t.input = s.input := by rw [State.input, State.input, hscript]
  obtain ⟨r, pop, s', t', hreads', hs, ht⟩ := hreads.step hinput
  refine ⟨_, _, hs, ht, ?_, hreads'.1.symm, fun a _ => (hreads'.2 a).symm, ?_⟩
  · rw [finish_out, finish_out, hreads.outputs hinput]
  · rw [finish_script, finish_script, hscript]

/-- Settles O17. -/
theorem bufferSpaceReadsWhatWasWritten : Obligations.BufferSpaceReadsWhatWasWritten := by
  refine fun m a v => ⟨?_, fun b hb => ?_, fun hwf => Memory.write_wf hwf a v⟩
  · rw [Memory.read_write, if_pos rfl]
  · rw [Memory.read_write, if_neg hb]

/-- Settles O20: the test compares once the length is known, and a known length comes with at least two stored
bytes and at most `N`. -/
theorem oversizedIsStrictlyGreater : Obligations.OversizedIsStrictlyGreater := by
  refine ⟨fun s h => isOversized_of_lt h, fun cfg s len hinv hlen => ?_⟩
  have h2 := two_le_of_declaredLength hlen
  have hmax := hinv.2
  rw [isOversized_of_declaredLength hlen, decide_eq_true_iff, decide_eq_false_iff_not]
  exact ⟨Iff.rfl, fun hshort => by omega, fun hfull => by omega, fun hlong => by omega⟩

end Sys2Proof.Machine
end

section
/-! PROOFS. The Byte Admission Step by cases (41_byte_admission.md sections 3 and 4, 60_exceptions.md sections 1
and 3): which of rejection, APPEND and drop a `POLL.BYTE` is, and how it classifies what it leaves. -/

namespace Sys2Proof.Machine

open Sys2Proof.Safety

/-- Below capacity APPEND is one write at cell `size`. -/
theorem append_stores {cfg : Config} {s : State} (hlt : s.size < cfg.maxPacketSize) (b : Byte) :
    (append cfg b s).size = s.size + 1 ∧ (append cfg b s).body.read s.size = some b ∧
      ∀ a, a ≠ s.size → (append cfg b s).body.read a = s.body.read a := by
  rw [append_below hlt]
  refine ⟨rfl, ?_, fun a ha => ?_⟩
  · rw [Memory.read_write, if_pos rfl]
  · rw [Memory.read_write, if_neg ha]

/-- Settles O32: an admission that is not rejected is APPEND. -/
theorem pollByteAppendsWhenNotOversized : Obligations.PollByteAppendsWhenNotOversized := by
  intro d s hover
  rw [exec_pollByte, admitByte_of_not_isOversized hover]
  refine ⟨_, rfl, finish_script .., fun hlt => append_stores hlt d, fun hge => ?_⟩
  rw [append_full hge]
  exact ⟨rfl, rfl⟩

/-- Settles O58: at every capacity the step shows what the admission at that capacity answers, and only
`POLL.BYTE` is given the capacity. -/
theorem pollByteAtEveryCapacity : Obligations.PollByteAtEveryCapacity := by
  refine ⟨fun cfg d s => ⟨_, rfl, finish_script .., ⟨rfl, rfl⟩, shows_finish .., fun hover hlt => ?_,
    fun hfull => ?_⟩, fun cfg i s hi => ?_⟩
  · rw [admitByte_of_not_isOversized hover]
    exact append_stores hlt d
  · rw [SameBuffer, finish_body, finish_size, admitByte_state, append_full hfull.ge, ite_self]
    exact ⟨rfl, rfl⟩
  · cases i with
    | pollByte d => exact absurd rfl (hi d)
    | idle | pollWait | reset | reserved _ => rfl

/-- A byte admitted to a buffer of known length is classified by the `size` after APPEND alone. -/
theorem admitByte_of_le_length {s : State} {len : Length} (hlen : declaredLength s = some len)
    (hle : s.size ≤ len.toNat) (cfg : Config) (b : Byte) :
    admitByte cfg b s =
      (append cfg b s, if (append cfg b s).size = len.toNat then .valid else .reading) := by
  have hover : isOversized s = false := by
    rw [isOversized_of_declaredLength hlen, decide_eq_false (Nat.not_lt.mpr hle)]
  have hlen' : declaredLength (append cfg b s) = some len := by
    rw [declaredLength_append (two_le_of_declaredLength hlen), hlen]
  rw [admitByte_of_not_isOversized hover, isComplete_of_declaredLength hlen']
  simp only [decide_eq_true_iff]

theorem admitByte_of_length_lt {s : State} {len : Length} (hlen : declaredLength s = some len)
    (hlt : len.toNat < s.size) (cfg : Config) (b : Byte) : admitByte cfg b s = (s, .invalid) :=
  admitByte_of_isOversized (by rw [isOversized_of_declaredLength hlen, decide_eq_true hlt]) cfg b

/-- The first byte is stored, and no length is known after it. -/
theorem admitByte_first {cfg : Config} {s : State} (h0 : s.size = 0) (b : Byte)
    (hcap : 0 < cfg.maxPacketSize) : admitByte cfg b s = (append cfg b s, .reading) := by
  have hsize : (append cfg b s).size < 2 := by
    rw [append_size, if_pos (h0 ▸ hcap), h0]; decide
  rw [admitByte_of_not_isOversized (isOversized_of_lt (by omega)), isComplete_of_lt hsize]
  rfl

/-- After the second byte the length is the first byte followed by the second. -/
theorem declaredLength_append_second {cfg : Config} {s : State} {hi : Byte} (h1 : s.size = 1)
    (hhi : s.body.read 0 = some hi) (b : Byte) (hcap : 1 < cfg.maxPacketSize) :
    declaredLength (append cfg b s) = some (hi ++ b) := by
  have hlt : s.size < cfg.maxPacketSize := h1 ▸ hcap
  have hsize : (append cfg b s).size = 2 := by rw [append_size, if_pos hlt, h1]
  have hread0 : memRead1 (append cfg b s) 0 = some hi := by
    rw [memRead1_append, if_neg (by omega), memRead1_of_lt (by omega), hhi]
  have hread1 : memRead1 (append cfg b s) 1 = some b := by
    rw [memRead1_append, if_pos ⟨hlt, h1.symm⟩]
  rw [declaredLength, if_neg (by omega), memRead2, hread0, hread1]

/-- The second byte is stored, and classified by the length that it completes. -/
theorem admitByte_second {cfg : Config} {s : State} {hi : Byte} (h1 : s.size = 1)
    (hhi : s.body.read 0 = some hi) (b : Byte) (hcap : 1 < cfg.maxPacketSize) :
    admitByte cfg b s =
      (append cfg b s, if 256 * hi.toNat + b.toNat = 2 then .valid else .reading) := by
  have hlen := declaredLength_append_second h1 hhi b hcap
  have hsize : (append cfg b s).size = 2 := by rw [append_size, if_pos (h1 ▸ hcap), h1]
  rw [admitByte_of_not_isOversized (isOversized_of_lt (by omega)), isComplete_of_declaredLength hlen,
    hsize, toNat_bigEndian]
  simp only [decide_eq_true_iff, eq_comm (a := 2)]

theorem bigEndian_eq_two (hi lo : Byte) :
    256 * hi.toNat + lo.toNat = 2 ↔ hi = 0x00#8 ∧ lo = 0x02#8 := by
  have hhi := hi.isLt
  have hlo := lo.isLt
  simp only [← BitVec.toNat_inj, BitVec.toNat_ofNat]
  omega

/-- Settles O34: the rows are told apart by `size`, by the declared length and by the capacity. -/
theorem pollByteCaseTable : Obligations.PollByteCaseTable := by
  intro cfg b s hcfg hinv
  obtain ⟨hcap, -⟩ := hcfg
  refine ⟨fun h0 => ?_, fun h1 => ?_, fun len hlen => ⟨fun _ hlt => ?_, fun hroom hle => ?_,
    fun hfull hlt => ?_, fun hfull heq => ?_, fun hfull hgt => ?_⟩⟩
  · obtain ⟨hsize, hread, -⟩ := append_stores (cfg := cfg) (s := s) (by omega) b
    rw [admitByte_first h0 b (by omega)]
    exact ⟨by rw [hsize, h0], h0 ▸ hread, rfl⟩
  · obtain ⟨hsize, hread, -⟩ := append_stores (cfg := cfg) (s := s) (by omega) b
    obtain ⟨hi, hhi⟩ := bufferInv_memRead1 hinv (a := 0) (by omega)
    rw [memRead1_of_lt (by omega)] at hhi
    rw [admitByte_second h1 hhi b (by omega), hhi]
    refine ⟨by rw [hsize, h1], h1 ▸ hread, ?_⟩
    simp only [Option.some_inj, bigEndian_eq_two]
  · exact admitByte_of_length_lt hlen hlt cfg b
  · obtain ⟨hsize, hread, -⟩ := append_stores hroom b
    rw [admitByte_of_le_length hlen hle, hsize]
    exact ⟨rfl, hread, rfl⟩
  · exact admitByte_of_length_lt hlen (by omega) cfg b
  · rw [admitByte_of_le_length hlen (by omega), append_full hfull.ge, if_pos (by omega)]
  · rw [admitByte_of_le_length hlen (by omega), append_full hfull.ge, if_neg (by omega)]

/-- A `POLL` step: `src_avail` decides between `POLL.WAIT` and `POLL.BYTE`. -/
theorem step_of_poll {s : State} (hrst : s.input.rst = false) (hop : s.input.op = 0b01#2) :
    step s =
      if s.input.srcAvail then exec (.pollByte s.input.srcData) s else exec .pollWait s := by
  rw [step_of_not_rst hrst, Inputs.word, hop, decode_poll]
  cases s.input.srcAvail <;> rfl

theorem not_shows_invalid_finish {s t : State} {r : Status} {pop : Bool} (hr : r ≠ .invalid) :
    ¬ Shows (finish s (some r) pop t) (some .invalid) true := by
  rintro ⟨hresult, -⟩
  exact hr (Option.some.inj (Option.some.inj hresult))

/-- Settles O35: without a byte the step is `POLL.WAIT`; with one, the admission rejects an oversized buffer, and
else appends or drops and then tests what it left. -/
theorem pollTestsInFixedOrder : Obligations.PollTestsInFixedOrder := by
  intro s hrst hop
  rw [step_of_poll hrst hop]
  cases havail : s.input.srcAvail with
  | false =>
    have hwait := shows_finish s s (some .waiting) false
    exact ⟨_, exec_pollWait s, fun _ => ⟨⟨rfl, rfl⟩, hwait⟩, nofun, nofun, nofun, nofun,
      fun _ => not_shows_invalid_finish nofun⟩
  | true =>
    cases hover : isOversized s with
    | true =>
      have hinvalid := shows_finish s s (some .invalid) true
      refine ⟨_, exec_pollByte _ s, nofun, fun _ _ => ?_, nofun, nofun, fun _ _ _ => ?_,
        fun hcomplete => ?_⟩
      · rw [admitByte_of_isOversized hover]
        exact ⟨⟨rfl, rfl⟩, hinvalid⟩
      · rw [admitByte_of_isOversized hover]
        exact hinvalid
      · simp [not_isOversized_of_isComplete hcomplete] at hover
    | false =>
      refine ⟨_, exec_pollByte _ s, nofun, nofun, fun _ _ hge => ?_, fun _ _ hlt => ?_,
        fun _ hfull hshort => ?_, fun _ => not_shows_invalid_finish ?_⟩
      · rw [admitByte_full hge hover]
        exact ⟨⟨rfl, rfl⟩, shows_finish ..⟩
      · rw [admitByte_of_not_isOversized hover]
        exact ⟨(append_stores hlt _).1, shows_finish ..⟩
      · have : isOversized s = true := (isOversized_iff s).mpr (hfull ▸ hshort)
        simp [hover] at this
      · rw [admitByte_of_not_isOversized hover]
        dsimp only
        split <;> nofun

/-- Settles O37: of the steps only `POLL.BYTE` can show `INVALID`, and its admission answers it exactly to an
oversized buffer. -/
theorem invalidExactlyWhenPolledOversized : Obligations.InvalidExactlyWhenPolledOversized := by
  intro s t hstep
  constructor
  · rintro ⟨pop, hshows⟩
    obtain ⟨-, r, p, hout⟩ := step_frame hstep
    obtain ⟨rfl, -⟩ : r = some .invalid ∧ p = pop := by simpa [Shows, hout] using hshows
    obtain ⟨rfl, -, hover⟩ : p = true ∧ SameBuffer s t ∧ isOversized s = true := by
      simpa using step_result_cases hstep hout
    obtain ⟨hrst, hop, havail⟩ := (step_ports hstep hout).2.mp rfl
    refine ⟨hrst, ⟨s.input.srcData, ?_⟩, hover⟩
    rw [Inputs.word, hop, havail]
    exact decode_poll true _
  · rintro ⟨hrst, ⟨d, hpoll⟩, hover⟩
    rw [step_of_not_rst hrst, hpoll, exec_pollByte, admitByte_of_isOversized hover] at hstep
    cases hstep
    exact ⟨true, shows_finish ..⟩

/-- Some levels of the pins carry the outputs whenever `size` fits its 9 bits. -/
theorem exists_drives {o : Outputs} (hsize : o.size < 512) : ∃ p, o.Drives p := by
  have hlevel : ∀ {n : Nat} (x : Option (BitVec n)), ∀ v ∈ x, x.getD 0 = v := by
    rintro n x v rfl; rfl
  exact ⟨{ statusValid := o.result.isSome
           status := match o.result with | some r => r.code | none => 0b00#2
           srcPop := o.srcPop
           size := BitVec.ofNat 9 o.size
           lenKnown := o.lenKnown
           dlen := o.dlen.getD 0
           typeKnown := o.typeKnown
           dtype := o.dtype.getD 0
           oversized := o.oversized
           rdValid := o.rdValid
           rdData := o.rdData.getD 0 },
    rfl, rfl, rfl, Nat.mod_eq_of_lt hsize, rfl, hlevel _, rfl, hlevel _, rfl, rfl, hlevel _⟩

/-- In the invariant the flags say whether the header values are defined. -/
theorem bufferInv_known {cfg : Config} {s : State} (hinv : BufferInv cfg s) :
    lenKnown s = (declaredLength s).isSome ∧ typeKnown s = (declaredType s).isSome := by
  constructor
  · rcases Nat.lt_or_ge s.size 2 with hlt | hge
    · rw [declaredLength_of_lt hlt, (lenKnown_eq_false_iff s).mpr hlt]; rfl
    · obtain ⟨hi, lo, -, -, hlen⟩ := bufferInv_declaredLength hinv hge
      rw [hlen, (lenKnown_iff s).mpr hge]; rfl
  · rcases Nat.lt_or_ge s.size 3 with hlt | hge
    · rw [declaredType_of_lt hlt, (typeKnown_eq_false_iff s).mpr hlt]; rfl
    · obtain ⟨b, -, htype⟩ := bufferInv_declaredType hinv hge
      rw [htype, (typeKnown_iff s).mpr hge]; rfl

/-- Settles O40: the ports show the pre-state by definition, and the invariant bounds its `size`. -/
theorem outputsShowThePreState : Obligations.OutputsShowThePreState := by
  intro s t hstep
  obtain ⟨-, r, pop, hout⟩ := step_frame hstep
  refine ⟨_, hout, rfl, lenKnown_iff s, rfl, typeKnown_iff s, rfl, rfl, (step_ports hstep hout).2,
    fun hinv => ⟨exists_drives ?_, bufferInv_known hinv⟩⟩
  exact lt_of_le_of_lt hinv.2 (by decide)

end Sys2Proof.Machine
end

section
/-! PROOFS. The phases (41_byte_admission.md section 5, R102): each phase is a comparison of `size` with the
declared length, and `POLL.BYTE` enters the one that the comparison after its APPEND names. -/

namespace Sys2Proof.Machine

open Sys2Proof.Safety

theorem phase_congr {s t : State} (h : SameBuffer s t) : phase t = phase s := by
  simp only [phase, declaredLength_congr h, h.2]

theorem phase_of_lt {s : State} (h : s.size < 2) : phase s = .header := by
  simp only [phase, declaredLength_of_lt h]

theorem phase_of_declaredLength {s : State} {len : Length} (hlen : declaredLength s = some len) :
    phase s = if s.size < len.toNat then .assembling
      else if s.size = len.toNat then .complete else .oversized := by
  simp only [phase, hlen]

theorem phase_eq_header_iff {cfg : Config} {s : State} (hinv : BufferInv cfg s) :
    phase s = .header ↔ s.size < 2 := by
  refine ⟨fun hphase => ?_, phase_of_lt⟩
  by_contra hge
  obtain ⟨hi, lo, -, -, hlen⟩ := bufferInv_declaredLength hinv (Nat.not_lt.mp hge)
  rw [phase_of_declaredLength hlen] at hphase
  split_ifs at hphase

theorem phase_eq_assembling_iff (s : State) :
    phase s = .assembling ↔ ∃ len, declaredLength s = some len ∧ s.size < len.toNat := by
  unfold phase
  cases declaredLength s with
  | none => simp
  | some len => simp only [Option.some_inj, exists_eq_left']; split_ifs <;> simp_all

theorem phase_eq_complete_iff (s : State) : phase s = .complete ↔ isComplete s = true := by
  rw [isComplete_iff]
  unfold phase
  cases declaredLength s with
  | none => simp
  | some len => simp only [Option.some_inj, exists_eq_left']; split_ifs <;> simp <;> omega

theorem phase_eq_oversized_iff (s : State) : phase s = .oversized ↔ isOversized s = true := by
  rw [isOversized_iff]
  unfold phase
  cases declaredLength s with
  | none => simp
  | some len => simp only [Option.some_inj, exists_eq_left']; split_ifs <;> simp <;> omega

/-- The state after a `POLL.BYTE`. -/
def afterPollByte (d : Byte) (s : State) : State :=
  finish s (some (admitByte Config.hardware d s).2) true (admitByte Config.hardware d s).1

theorem exec_pollByte_eq (d : Byte) (s : State) :
    exec (.pollByte d) s = .next (afterPollByte d s) := rfl

theorem afterPollByte_of_not_isOversized {s : State} (hover : isOversized s = false) (d : Byte) :
    afterPollByte d s = finish s
      (some (if isComplete (append Config.hardware d s) then .valid else .reading)) true
      (append Config.hardware d s) := by
  rw [afterPollByte, admitByte_of_not_isOversized hover]

/-- A `POLL.BYTE` after whose APPEND the length is known enters the phase that `size` and the length then name, and
shows `VALID` exactly in `COMPLETE`. -/
theorem afterPollByte_enters {s : State} {d : Byte} {len : Length} (hover : isOversized s = false)
    (hlen : declaredLength (append Config.hardware d s) = some len) :
    ((append Config.hardware d s).size < len.toNat →
      phase (afterPollByte d s) = .assembling ∧ Shows (afterPollByte d s) (some .reading) true) ∧
    ((append Config.hardware d s).size = len.toNat →
      phase (afterPollByte d s) = .complete ∧ Shows (afterPollByte d s) (some .valid) true) ∧
    (len.toNat < (append Config.hardware d s).size →
      phase (afterPollByte d s) = .oversized ∧ Shows (afterPollByte d s) (some .reading) true) := by
  have hphase : phase (afterPollByte d s) = phase (append Config.hardware d s) := by
    rw [afterPollByte_of_not_isOversized hover]; rfl
  rw [hphase, phase_of_declaredLength hlen, afterPollByte_of_not_isOversized hover,
    isComplete_of_declaredLength hlen]
  refine ⟨fun hlt => ?_, fun heq => ?_, fun hgt => ?_⟩
  · rw [if_pos hlt, decide_eq_false hlt.ne]; exact ⟨rfl, shows_finish ..⟩
  · rw [if_neg heq.not_lt, if_pos heq, decide_eq_true heq]; exact ⟨rfl, shows_finish ..⟩
  · rw [if_neg hgt.not_gt, if_neg hgt.ne', decide_eq_false hgt.ne']; exact ⟨rfl, shows_finish ..⟩

/-- The first byte stays in `HEADER`. -/
theorem afterPollByte_first {s : State} (h0 : s.size = 0) (d : Byte) :
    phase (afterPollByte d s) = .header ∧ (afterPollByte d s).size = 1 ∧
      Shows (afterPollByte d s) (some .reading) true := by
  have hsize : (append Config.hardware d s).size = 1 := by rw [append_size, h0]; rfl
  have hafter : afterPollByte d s = finish s (some .reading) true (append Config.hardware d s) := by
    rw [afterPollByte, admitByte_first h0 d (by decide)]
  rw [hafter, finish_size, hsize]
  exact ⟨phase_of_lt (by rw [finish_size, hsize]; decide), rfl, shows_finish ..⟩

/-- Settles O42: the comparison of `size` with the declared length after APPEND names the phase entered; an
oversized buffer is left as it is, and the other commands append nothing. -/
theorem phaseTransitions : Obligations.PhaseTransitions := by
  intro s hinv
  have hmax := hinv.2
  refine ⟨phase_eq_header_iff hinv, phase_eq_complete_iff s, phase_eq_oversized_iff s,
    fun i t hexec hi => ?_, ⟨_, exec_reset s, phase_of_lt Nat.zero_lt_two, rfl⟩,
    fun d => ⟨_, exec_pollByte_eq d s, fun h0 => afterPollByte_first h0 d, fun h1 => ?_,
      fun hassembling => ?_, fun hcomplete => ?_, fun hover => ?_⟩⟩
  · obtain rfl | rfl | ⟨x, rfl⟩ := hi <;> (cases hexec; rfl)
  · obtain ⟨hi, hhi⟩ := bufferInv_memRead1 hinv (a := 0) (by omega)
    rw [memRead1_of_lt (by omega)] at hhi
    have hlen := declaredLength_append_second h1 hhi d (cfg := Config.hardware) (by decide)
    have hsize : (append Config.hardware d s).size = 2 := by rw [append_size, h1]; rfl
    have henters := afterPollByte_enters (isOversized_of_lt (by omega)) hlen
    rw [hsize, toNat_bigEndian] at henters
    obtain ⟨hlt, heq, hgt⟩ := henters
    exact ⟨hi, hhi, hlt, fun h => heq h.symm, hgt⟩
  · obtain ⟨len, hlen, hlt⟩ := (phase_eq_assembling_iff s).mp hassembling
    have hover : isOversized s = false := by
      rw [isOversized_of_declaredLength hlen, decide_eq_false hlt.not_gt]
    obtain ⟨hmore, hlast, -⟩ := afterPollByte_enters (d := d) hover
      ((declaredLength_append (two_le_of_declaredLength hlen)).trans hlen)
    refine ⟨len, hlen, fun hcase => hmore ?_, fun hnext hroom => hlast ?_⟩
    · rw [append_size]; split_ifs <;> omega
    · rw [append_size, if_pos (lt_of_le_of_ne hmax hroom), hnext]
  · rw [phase_eq_complete_iff] at hcomplete
    obtain ⟨len, hlen, heq⟩ := (isComplete_iff s).mp hcomplete
    obtain ⟨-, hsame, hpast⟩ := afterPollByte_enters (d := d)
      (not_isOversized_of_isComplete hcomplete)
      ((declaredLength_append (two_le_of_declaredLength hlen)).trans hlen)
    rw [append_size] at hsame hpast
    refine ⟨fun hroom => hpast ?_, fun hfull => hsame ?_⟩
    · rw [if_pos hroom]; omega
    · rw [if_neg (by omega), heq]
  · have hsame := (phase_eq_oversized_iff s).mp hover
    rw [afterPollByte, admitByte_of_isOversized hsame]
    exact ⟨hover, shows_finish ..⟩

end Sys2Proof.Machine
end

section
/-! PROOFS. The lines of a listing (30_encoding.md R62): the two digits of a byte read back as the byte, and neither is
a separator of tokens. -/

namespace Sys2Proof.Machine.Listing

theorem hexValue_hexChar {n : Nat} (h : n < 16) : hexValue (hexChar n) = some n := by
  revert n; decide

theorem hexChar_ne_separator {n : Nat} (h : n < 16) :
    hexChar n ≠ ';' ∧ hexChar n ≠ ' ' ∧ hexChar n ≠ ',' := by
  revert n; decide

theorem digits_lt (b : Byte) : b.toNat / 16 < 16 ∧ b.toNat % 16 < 16 := by
  have h := b.isLt
  omega

theorem readByte_writeByte (b : Byte) : readByte (writeByte b) = some b := by
  obtain ⟨hhigh, hlow⟩ := digits_lt b
  simp only [readByte, writeByte, hexValue_hexChar hhigh, hexValue_hexChar hlow, Nat.div_add_mod,
    BitVec.ofNat_toNat, BitVec.setWidth_eq]

/-- The line of a `POLL.BYTE` has two tokens, of which the second is the byte. -/
theorem tokens_pollByte (b : Byte) :
    tokens (['P', 'O', 'L', 'L', ' '] ++ writeByte b) [] = [['P', 'O', 'L', 'L'], writeByte b] := by
  obtain ⟨hhigh, hlow⟩ := digits_lt b
  obtain ⟨hh1, hh2, hh3⟩ := hexChar_ne_separator hhigh
  obtain ⟨hl1, hl2, hl3⟩ := hexChar_ne_separator hlow
  simp [tokens, writeByte, hh1, hh2, hh3, hl1, hl2, hl3]

theorem readLine_pollByte (b : Byte) :
    readLine (['P', 'O', 'L', 'L', ' '] ++ writeByte b) = some [.pollByte b] := by
  have hcommand : readCommand [['P', 'O', 'L', 'L'], writeByte b] = some (.pollByte b) := by
    change (readByte (writeByte b)).map Instr.pollByte = _
    rw [readByte_writeByte]; rfl
  simp only [readLine, tokens_pollByte, hcommand]

/-- Settles O6: the lines without an operand are fixed, and the operand of `POLL.BYTE` reads back. -/
theorem listingReadsBack : Obligations.ListingReadsBack := by
  intro i
  cases i with
  | idle => exact ⟨by decide, by rintro line ⟨⟩; decide⟩
  | pollWait => exact ⟨by decide, by rintro line ⟨⟩; decide⟩
  | reset => exact ⟨by decide, by rintro line ⟨⟩; decide⟩
  | pollByte d => exact ⟨iff_of_true rfl rfl, by rintro line ⟨⟩; exact readLine_pollByte d⟩
  | reserved x => exact ⟨iff_of_false nofun nofun, nofun⟩

end Sys2Proof.Machine.Listing
end

section
/-! PROOFS. The capacity, the fetch and the submission of a sequence (00_scope.md section 4, 20_memory.md R42,
70_reset_and_hazards.md R150): where the inputs of a step come from and which of them are refused. -/

namespace Sys2Proof.Machine

open Sys2Proof.Safety

/-- Settles O24: the width is that of the highest bit of `N`. -/
theorem sizeNeedsNineBits : Obligations.SizeNeedsNineBits := by
  refine ⟨rfl, by decide, by decide, fun cfg hcfg => ⟨Nat.lt_log2_self, ?_⟩⟩
  have hne : cfg.maxPacketSize ≠ 0 := by have := hcfg.1; omega
  exact Nat.log2_self_le hne

/-- Settles O56: the fixed names are the machine at the default capacity, and the invariant, which every run keeps, bounds
`size` by the capacity. -/
theorem capacityIsAnArgument : Obligations.CapacityIsAnArgument := by
  refine ⟨rfl, fun _ => Iff.rfl, exec_eq_execAt, step_eq_stepAt, run_eq_runAt,
    fun cfg _ inputs n => ?_⟩
  obtain ⟨t, hrun, -, hsize⟩ := bufferInv_runAt (cfg := cfg) n
    (s := { State.reset with script := inputs }) (bufferInv_empty ⟨rfl, rfl⟩)
  exact ⟨t, hrun, hsize⟩

/-- A word placed for the coming step is the one its inputs carry. -/
theorem withFetchWord_input (s : State) {w : Nat} (hw : w < 2048) :
    (s.withFetchWord 16 w).input = Inputs.ofWord (BitVec.ofNat 11 w) s.input.rdAddr := by
  rw [State.withFetchWord, present_input, Nat.mod_eq_of_lt (by omega)]

/-- Settles O9: a step that does not assert `rst` executes what its inputs' word decodes to, and the quiet inputs
are `IDLE`. -/
theorem stepRunsTheDecodedCommand : Obligations.StepRunsTheDecodedCommand := by
  refine ⟨fun s h => step_of_not_rst h, fun s w hw => ⟨?_, rfl, ⟨rfl, rfl⟩, rfl⟩, fun s h => ?_⟩
  · rw [step_of_not_rst (by rw [withFetchWord_input s hw]; rfl), withFetchWord_input s hw,
      word_ofWord]
  · have hinput : s.input = Inputs.quiet := by rw [State.input, h]; rfl
    have hidle : decode Inputs.quiet.word = .idle := decode_idle false 0#8
    rw [step_of_not_rst (by rw [hinput]; rfl), hinput, hidle]

theorem wf_eq_false_iff (i : Instr) : i.wf = false ↔ ∃ x, i = .reserved x := by
  cases i <;> simp [Instr.wf]

theorem issuesReserved_iff (i : Inputs) :
    i.issuesReserved = true ↔ i.rst = false ∧ ∃ x, decode i.word = .reserved x := by
  simp only [Inputs.issuesReserved, Bool.and_eq_true, Bool.not_eq_true', wf_eq_false_iff]

theorem submit_eq_refused_iff (inputs : List Inputs) (s : State) :
    submit inputs s = .refused .reservedCommand ↔ ∃ i ∈ inputs, i.issuesReserved = true := by
  rw [submit, ← List.any_eq_true]
  split <;> simp_all

theorem submit_eq_next {inputs : List Inputs} {s t : State} (h : submit inputs s = .next t) :
    (∀ i ∈ inputs, i.issuesReserved = false) ∧ t = { s with script := s.script ++ inputs } := by
  unfold submit at h
  split at h
  · cases h
  · next hany => cases h; exact ⟨by simpa using hany, rfl⟩

/-- Settles O29: the meaning of the reserved command is that of `IDLE`, and its canonical inputs issue it. -/
theorem reservedActsAsIdleAndIsRefused : Obligations.ReservedActsAsIdleAndIsRefused := by
  refine ⟨fun avail data => ⟨_, decode_reserved avail data⟩, fun ignored s => ⟨_, rfl, ⟨rfl, rfl⟩,
    finish_script .., shows_finish .., rfl⟩, fun program ignored rdAddr s hmem => ?_⟩
  rw [submit_eq_refused_iff]
  refine ⟨_, List.mem_map_of_mem hmem, (issuesReserved_iff _).mpr ⟨rfl, ignored, ?_⟩⟩
  rw [word_ofWord, decode_encode]

/-- A step's inputs are the script's first or quiet. -/
theorem input_mem_or_quiet (s : State) : s.input ∈ s.script ∨ s.input = Inputs.quiet := by
  rw [State.input]
  cases s.script <;> simp

/-- The inputs of a run are those of the script, and quiet ones beyond it. -/
theorem input_of_mem_history {n : Nat} {s : State} {r : Record} (hr : r ∈ history n s) :
    r.input ∈ s.script ∨ r.input = Inputs.quiet := by
  induction n generalizing s with
  | zero => simp at hr
  | succ n ih =>
    obtain ⟨t, hstep⟩ := step_next s
    obtain ⟨hscript, _, _, hout⟩ := step_frame hstep
    rw [history_succ hstep hout] at hr
    rcases List.mem_cons.mp hr with rfl | hr
    · exact input_mem_or_quiet s
    · exact (ih hr).imp_left fun hmem => List.mem_of_mem_tail (hscript ▸ hmem)

/-- Settles O52: an accepted sequence is the script of the run, and the quiet inputs beyond it are `IDLE`. -/
theorem submittedSequencesAreLegal : Obligations.SubmittedSequencesAreLegal := by
  intro inputs s hempty
  refine ⟨?_, fun t hsubmit => ?_⟩
  · simp only [submit_eq_refused_iff, issuesReserved_iff]
  · obtain ⟨hlegal, rfl⟩ := submit_eq_next hsubmit
    refine ⟨by rw [hempty]; rfl, ⟨rfl, rfl⟩, rfl, fun n => ?_⟩
    refine List.all_eq_true.mpr fun r hr => ?_
    have hissues : r.input.issuesReserved = false := by
      obtain hmem | hquiet := input_of_mem_history hr
      · exact hlegal _ (by simpa [hempty] using hmem)
      · rw [hquiet]; decide
    rw [hissues]; rfl

theorem hasByteAvailable_iff (ready : Bool) (src : Source) :
    Source.hasByteAvailable ready src = true ↔ ready = true ∧ src ≠ [] := by
  simp [Source.hasByteAvailable]

/-- Settles O53: the step shows `src_pop` exactly in a `POLL` with a byte available, and then the source offers its
head. -/
theorem onePollTakesAtMostOneByte : Obligations.OnePollTakesAtMostOneByte := by
  intro e c
  obtain ⟨t, r, pop, hstep, hout, -, hpop⟩ := step_outputs (c.framer.present (e.inputs c.source))
  have hclosed : Closed.step e c = .next ⟨t, c.source.afterStep pop⟩ := by
    rw [Closed.step, ← step_eq_stepAt, hstep]
    simp only [hout, outputs_srcPop]
  rw [present_input, Environment.inputs, hasByteAvailable_iff] at hpop
  refine ⟨_, hclosed, fun htakes => ?_, fun hkeeps => ?_⟩
  · have hpopped := hpop.mpr htakes
    obtain ⟨-, hop, hready, hne⟩ := htakes
    obtain ⟨b, rest, hsource⟩ := List.exists_cons_of_ne_nil hne
    rw [hpopped, hsource]
    refine ⟨b, rfl, ?_⟩
    simp only [Inputs.word, Environment.inputs, hop, hready]
    exact decode_poll true b
  · rw [Bool.eq_false_iff.mpr (mt hpop.mp hkeeps)]
    rfl

end Sys2Proof.Machine
end

section
/-! PROOFS. Runs without a reset from their end (40_packet_buffer.md R74, 41_byte_admission.md R97, R98): the last
step of a run, an induction over its records, and what no step of such a run can take away. -/

namespace Sys2Proof.Machine

open Sys2Proof.Safety

/-- The last step of a run without a reset, and the run before it. -/
theorem run_succ_last {n : Nat} {s t : State} (hno : NoReset (n + 1) s)
    (hrun : Host.Core.run Sys2Proof.core (n + 1) s = .next t) :
    ∃ (u : State) (o : Outputs), Host.Core.run Sys2Proof.core n s = .next u ∧ NoReset n s ∧
      asksReset u.input = false ∧ step u = .next t ∧ t.out = some o ∧
      history (n + 1) s = history n s ++ [⟨u.input, o⟩] := by
  induction n generalizing s with
  | zero =>
    obtain ⟨u, o, hstep, hout, hfirst, -, hhistory⟩ := noReset_succ hno
    rw [run_succ hstep, run_zero] at hrun
    cases hrun
    exact ⟨s, o, rfl, List.forall_mem_nil _, hfirst, hstep, hout, hhistory⟩
  | succ n ih =>
    obtain ⟨v, p, hstep, hout, hfirst, hrest, hhistory⟩ := noReset_succ hno
    rw [run_succ hstep] at hrun
    obtain ⟨u, o, hrun', hno', hlast, hstep', hout', hhistory'⟩ := ih hrest hrun
    have hbegin := history_succ hstep hout n
    refine ⟨u, o, (run_succ hstep n).trans hrun', ?_, hlast, hstep', hout', ?_⟩
    · rw [NoReset, hbegin]
      exact List.forall_mem_cons.mpr ⟨hfirst, hno'⟩
    · rw [hhistory, hhistory', hbegin]
      rfl

/-- What holds of a state and its empty record and is kept by every step whose inputs ask for no reset, with the
record that the step adds, holds at the end of every run without a reset. -/
theorem run_history_induction {P : List Record → State → Prop}
    (hkeeps : ∀ (h : List Record) (u v : State) (o : Outputs), asksReset u.input = false →
      step u = .next v → v.out = some o → P h u → P (h ++ [⟨u.input, o⟩]) v)
    {n : Nat} {s t : State} (hno : NoReset n s)
    (hrun : Host.Core.run Sys2Proof.core n s = .next t) (hstart : P [] s) :
    P (history n s) t := by
  induction n generalizing t with
  | zero => cases hrun; exact hstart
  | succ n ih =>
    obtain ⟨u, o, hrun', hno', hlast, hstep, hout, hhistory⟩ := run_succ_last hno hrun
    rw [hhistory]
    exact hkeeps _ u t o hlast hstep hout (ih hno' hrun')

/-- The valid bytes of `t` begin with those of `s`. -/
def Extends (s t : State) : Prop :=
  s.size ≤ t.size ∧ ∀ a < s.size, memRead1 t a = memRead1 s a

theorem Extends.refl (s : State) : Extends s s := ⟨Nat.le_refl _, fun _ _ => rfl⟩

theorem Extends.trans {s t u : State} (hst : Extends s t) (htu : Extends t u) : Extends s u :=
  ⟨hst.1.trans htu.1, fun a ha => (htu.2 a (ha.trans_le hst.1)).trans (hst.2 a ha)⟩

theorem memRead1_congr {s t : State} (h : SameBuffer s t) (a : Nat) :
    memRead1 t a = memRead1 s a := by
  rw [memRead1, memRead1, h.1, h.2]

theorem extends_of_sameBuffer {s t : State} (h : SameBuffer s t) : Extends s t :=
  ⟨h.2.ge, fun a _ => memRead1_congr h a⟩

theorem extends_append (cfg : Config) (b : Byte) (s : State) : Extends s (append cfg b s) :=
  have ⟨hsize, _, hbytes⟩ := append_grows cfg b s
  ⟨hsize, hbytes⟩

/-- A known length stays. -/
theorem Extends.declaredLength {s t : State} (h : Extends s t) {len : Length}
    (hlen : declaredLength s = some len) : declaredLength t = some len := by
  obtain ⟨hsize, hbytes⟩ := h
  have h2 := two_le_of_declaredLength hlen
  rw [← hlen]
  simp only [Machine.declaredLength, memRead2]
  rw [if_neg (by omega), if_neg (by omega), hbytes _ (by omega), hbytes _ (by omega)]

/-- A known type stays. -/
theorem Extends.declaredType {s t : State} (h : Extends s t) {type : Byte}
    (htype : declaredType s = some type) : declaredType t = some type := by
  obtain ⟨hsize, hbytes⟩ := h
  have h3 : ¬ s.size < 3 := fun hlt => by simp [declaredType_of_lt hlt] at htype
  rw [← htype]
  simp only [Machine.declaredType]
  rw [if_neg (by omega), if_neg h3, hbytes _ (by omega)]

theorem step_extends {s t : State} (hno : asksReset s.input = false) (hstep : step s = .next t) :
    Extends s t := by
  obtain hsame | ⟨-, -, happend⟩ := step_appends_or_keeps hno hstep
  · exact extends_of_sameBuffer hsame
  · exact (extends_append ..).trans (extends_of_sameBuffer happend)

theorem run_extends {n : Nat} {s t : State} (hno : NoReset n s)
    (hrun : Host.Core.run Sys2Proof.core n s = .next t) : Extends s t :=
  run_induction (P := Extends s) (fun _ _ hfree hstep hext => hext.trans (step_extends hfree hstep))
    hno hrun (Extends.refl s)

theorem length_history (n : Nat) (s : State) : (history n s).length = n := by
  induction n generalizing s with
  | zero => rfl
  | succ n ih =>
    obtain ⟨t, hstep⟩ := step_next s
    obtain ⟨-, _, _, hout⟩ := step_frame hstep
    rw [history_succ hstep hout, List.length_cons, ih]

/-- Settles O43: every step extends the valid bytes, by at most the byte it consumes. -/
theorem validBytesOnlyGrow : Obligations.ValidBytesOnlyGrow := by
  intro n s t hno hrun
  have hext := run_extends hno hrun
  have hconsumed : (consumedBytes (history n s)).length ≤ n :=
    (List.length_filterMap_le ..).trans (length_history n s).le
  have hsize := run_size_le hno hrun
  exact ⟨hext.1, by omega, hext.2, fun _ => hext.declaredLength, fun _ => hext.declaredType⟩

/-- What a step shows of its pre-state. -/
theorem step_shows_pre_state {s t : State} {o : Outputs} (hstep : step s = .next t)
    (hout : t.out = some o) :
    o.size = s.size ∧ o.dlen = declaredLength s ∧ o.oversized = isOversized s := by
  obtain ⟨-, r, pop, hshown⟩ := step_frame hstep
  rw [← Option.some.inj (hshown.symm.trans hout)]
  exact ⟨rfl, rfl, rfl⟩

theorem rst_eq_false_of_not_asksReset {i : Inputs} (h : asksReset i = false) : i.rst = false :=
  (Bool.or_eq_false_iff.mp h).1

/-- What a step shows that meets an oversized buffer: the flag, `INVALID` for a byte, `WAITING` for none. -/
def ShowsOversized (r : Record) : Prop :=
  r.output.oversized = true ∧
    (decode r.input.word = .pollByte r.input.srcData →
      r.output.result = some .invalid ∧ r.output.srcPop = true) ∧
    (decode r.input.word = .pollWait → r.output.result = some .waiting)

/-- A step without a reset leaves an oversized buffer as it is. -/
theorem step_of_isOversized {s t : State} {o : Outputs} (hover : isOversized s = true)
    (hno : asksReset s.input = false) (hstep : step s = .next t) (hout : t.out = some o) :
    SameBuffer s t ∧ ShowsOversized ⟨s.input, o⟩ := by
  have hexec := (step_of_not_rst (rst_eq_false_of_not_asksReset hno)).symm.trans hstep
  obtain ⟨-, -, hport⟩ := step_shows_pre_state hstep hout
  refine ⟨?_, hport.trans hover, fun hpoll => ?_, fun hwait => ?_⟩
  · obtain hsame | ⟨-, hnot, -⟩ := step_appends_or_keeps hno hstep
    · exact hsame
    · simp [hover] at hnot
  · rw [hpoll, exec_pollByte, admitByte_of_isOversized hover] at hexec
    cases hexec; cases hout; exact ⟨rfl, rfl⟩
  · rw [hwait, exec_pollWait] at hexec
    cases hexec; cases hout; rfl

/-- A run without a reset leaves an oversized buffer as it is. -/
theorem run_of_isOversized {n : Nat} {s : State} (hover : isOversized s = true) (hno : NoReset n s) :
    ∃ t : State, Host.Core.run Sys2Proof.core n s = .next t ∧ SameBuffer s t ∧
      ∀ r ∈ history n s, ShowsOversized r := by
  induction n generalizing s with
  | zero => exact ⟨s, rfl, ⟨rfl, rfl⟩, List.forall_mem_nil _⟩
  | succ n ih =>
    obtain ⟨u, o, hstep, hout, hfirst, hrest, hhistory⟩ := noReset_succ hno
    obtain ⟨hsame, hshows⟩ := step_of_isOversized hover hfirst hstep hout
    obtain ⟨t, hrun, hsame', hrecords⟩ := ih ((isOversized_congr hsame).trans hover) hrest
    rw [run_succ hstep, hhistory]
    exact ⟨t, hrun, ⟨hsame'.1.trans hsame.1, hsame'.2.trans hsame.2⟩,
      List.forall_mem_cons.mpr ⟨hshows, hrecords⟩⟩

/-- Settles O44: each step finds the buffer that the one before it found. -/
theorem oversizedIsSticky : Obligations.OversizedIsSticky := by
  intro n s hover hno
  obtain ⟨t, hrun, hsame, hrecords⟩ := run_of_isOversized hover hno
  exact ⟨t, hrun, hsame, (isOversized_congr hsame).trans hover, hrecords⟩

end Sys2Proof.Machine
end

section
/-! PROOFS. The bytes since the buffer was empty (41_byte_admission.md R100, R106): what each step
of a run without a reset makes of its byte, and what the record of the run says of the buffer at its end. -/

namespace Sys2Proof.Machine

open Sys2Proof.Safety

/-- What a step without a reset from `u` to `v`, of record `r`, makes of its byte. -/
inductive Fate (u v : State) (r : Record) : Prop where
  /-- No byte is consumed. -/
  | unpolled (hpop : r.output.srcPop = false) (hrejects : r.rejects = false)
      (hdrops : r.drops Config.hardware = false) (hsame : SameBuffer u v)
  /-- The byte is rejected (R93). -/
  | rejected (hpop : r.output.srcPop = true) (hrejects : r.rejects = true)
      (hdrops : r.drops Config.hardware = false) (hsame : SameBuffer u v)
      (hresult : r.output.result = some .invalid) (hover : isOversized u = true)
  /-- The byte is dropped at capacity (40_packet_buffer.md R76). -/
  | dropped (hpop : r.output.srcPop = true) (hrejects : r.rejects = false)
      (hdrops : r.drops Config.hardware = true) (hsame : SameBuffer u v)
      (hresult : r.output.result = some (if isComplete v then .valid else .reading))
      (hover : isOversized u = false) (hfull : u.size = Config.hardware.maxPacketSize)
  /-- The byte is stored (40_packet_buffer.md R75). -/
  | stored (hpop : r.output.srcPop = true) (hrejects : r.rejects = false)
      (hdrops : r.drops Config.hardware = false)
      (hbytes : validBytes v = validBytes u ++ [r.input.srcData]) (hsize : v.size = u.size + 1)
      (hresult : r.output.result = some (if isComplete v then .valid else .reading))
      (hover : isOversized u = false) (hroom : u.size < Config.hardware.maxPacketSize)

theorem validBytes_append {cfg : Config} {s : State} (hinv : BufferInv cfg s)
    (hroom : s.size < cfg.maxPacketSize) (b : Byte) :
    validBytes (append cfg b s) = validBytes s ++ [b] := by
  simp [append_below hroom, validBytes, bufferInv_write hinv]

theorem validBytes_congr {s t : State} (h : SameBuffer s t) : validBytes t = validBytes s := by
  rw [validBytes, validBytes, h.1]

/-- An admitted byte is not rejected, and is dropped exactly at capacity. -/
theorem record_of_admitted {r : Record} {complete : Bool} (hpop : r.output.srcPop = true)
    (hresult : r.output.result = some (if complete then .valid else .reading)) (cfg : Config) :
    r.rejects = false ∧ r.drops cfg = decide (r.output.size = cfg.maxPacketSize) := by
  cases complete <;> simp [Record.rejects, Record.drops, hpop, hresult]

/-- Every step without a reset has a fate for its byte. -/
theorem step_fate {u v : State} {o : Outputs} (hinv : BufferInv Config.hardware u)
    (hno : asksReset u.input = false) (hstep : step u = .next v) (hout : v.out = some o) :
    Fate u v ⟨u.input, o⟩ := by
  rcases step_cases u with ⟨hreset, _⟩ | ⟨_, _, e⟩ | ⟨_, _, e⟩ | ⟨_, _, _, e⟩
  · simp [hno] at hreset
  · rw [e] at hstep; cases hstep; cases hout
    exact .unpolled rfl rfl rfl ⟨rfl, rfl⟩
  · rw [e] at hstep; cases hstep; cases hout
    cases hover : isOversized u with
    | true =>
      rw [admitByte_of_isOversized hover]
      exact .rejected rfl rfl rfl ⟨rfl, rfl⟩ rfl hover
    | false =>
      rw [admitByte_of_not_isOversized hover]
      obtain ⟨hrejects, hdrops⟩ := record_of_admitted (r := ⟨u.input, outputs u
        (some (if isComplete (append Config.hardware u.input.srcData u) then .valid else .reading))
        true⟩) rfl rfl Config.hardware
      rcases Nat.lt_or_ge u.size Config.hardware.maxPacketSize with hroom | hge
      · exact .stored rfl hrejects (hdrops.trans (decide_eq_false hroom.ne))
          (validBytes_append hinv hroom _) (append_stores hroom _).1 rfl hover hroom
      · have hfull := Nat.le_antisymm hinv.2 hge
        rw [append_full hge] at hrejects hdrops ⊢
        exact .dropped rfl hrejects (hdrops.trans (decide_eq_true hfull)) ⟨rfl, rfl⟩ rfl hover hfull
  · rw [e] at hstep; cases hstep; cases hout
    exact .unpolled rfl rfl rfl ⟨rfl, rfl⟩

theorem bufferInv_step {s t : State} (hinv : BufferInv Config.hardware s) (hstep : step s = .next t) :
    BufferInv Config.hardware t :=
  bufferInv_stepAt hinv ((step_eq_stepAt s).symm.trans hstep)

theorem consumedBytes_append (h h' : List Record) :
    consumedBytes (h ++ h') = consumedBytes h ++ consumedBytes h' := List.filterMap_append

theorem consumedBytes_concat (h : List Record) (r : Record) :
    consumedBytes (h ++ [r]) =
      if r.output.srcPop then consumedBytes h ++ [r.input.srcData] else consumedBytes h := by
  rw [consumedBytes_append, consumedBytes_cons]
  cases r.output.srcPop <;> simp [consumedBytes]

/-- A record stores its byte when it neither rejects nor drops it. -/
theorem storedBytes_concat (cfg : Config) (h : List Record) (r : Record) :
    storedBytes cfg (h ++ [r]) =
      if r.output.srcPop && (!r.rejects && !r.drops cfg) then
        storedBytes cfg h ++ [r.input.srcData] else storedBytes cfg h := by
  rw [storedBytes, List.filter_append, List.filter_singleton]
  cases !r.rejects && !r.drops cfg with
  | false => rw [Bool.and_false, cond_false, List.append_nil]; rfl
  | true => rw [Bool.and_true, cond_true, consumedBytes_concat]; rfl

/-- The accounts of a record `h` that began with an empty buffer and led to `u` (R106). -/
structure Accounted (h : List Record) (u : State) : Prop where
  inv : BufferInv Config.hardware u
  bytes : validBytes u = storedBytes Config.hardware h
  balance : u.size + h.countP Record.rejects + h.countP (Record.drops Config.hardware) =
    (consumedBytes h).length
  rejected : 0 < h.countP Record.rejects → isOversized u = true
  dropped : 0 < h.countP (Record.drops Config.hardware) →
    u.size = Config.hardware.maxPacketSize ∧
      ∃ len, declaredLength u = some len ∧ Config.hardware.maxPacketSize ≤ len.toNat

/-- At capacity a buffer that is not oversized declares at least `N` bytes. -/
theorem length_ge_of_full {s : State} (hinv : BufferInv Config.hardware s)
    (hfull : s.size = Config.hardware.maxPacketSize) (hover : isOversized s = false) :
    ∃ len, declaredLength s = some len ∧ Config.hardware.maxPacketSize ≤ len.toNat := by
  obtain ⟨hi, lo, -, -, hlen⟩ := bufferInv_declaredLength hinv (hfull ▸ by decide)
  rw [isOversized_of_declaredLength hlen, decide_eq_false_iff_not, hfull] at hover
  exact ⟨_, hlen, Nat.not_lt.mp hover⟩

theorem accounted_empty {s : State} (h : EmptyBuffer s) : Accounted [] s where
  inv := bufferInv_empty h
  bytes := by rw [validBytes, h.1]; rfl
  balance := h.2
  rejected := nofun
  dropped := nofun

/-- A step that leaves the buffer keeps the accounts when it balances its byte and has a reason to reject or
drop it. -/
theorem accounted_of_sameBuffer {h : List Record} {u v : State} {r : Record} (hacc : Accounted h u)
    (hsame : SameBuffer u v) (hbalance : r.output.srcPop = (r.rejects || r.drops Config.hardware))
    (hone : (r.rejects && r.drops Config.hardware) = false)
    (hrejects : r.rejects = true → isOversized u = true)
    (hdrops : r.drops Config.hardware = true →
      u.size = Config.hardware.maxPacketSize ∧ isOversized u = false) :
    Accounted (h ++ [r]) v where
  inv := bufferInv_of_eq hacc.inv hsame.1 hsame.2
  bytes := by
    rw [validBytes_congr hsame, hacc.bytes, storedBytes_concat, hbalance]
    cases r.rejects <;> cases r.drops Config.hardware <;> rfl
  balance := by
    have hbefore := hacc.balance
    rw [consumedBytes_concat, hbalance, hsame.2]
    cases hr : r.rejects <;> cases hd : r.drops Config.hardware <;> simp_all <;> omega
  rejected hpos := by
    rw [isOversized_congr hsame]
    cases hr : r.rejects with
    | true => exact hrejects hr
    | false => exact hacc.rejected (by simpa [hr] using hpos)
  dropped hpos := by
    rw [hsame.2, declaredLength_congr hsame]
    cases hd : r.drops Config.hardware with
    | true => exact ⟨(hdrops hd).1, length_ge_of_full hacc.inv (hdrops hd).1 (hdrops hd).2⟩
    | false => exact hacc.dropped (by simpa [hd] using hpos)

/-- Every step without a reset keeps the accounts. -/
theorem accounted_step (h : List Record) (u v : State) (o : Outputs)
    (hno : asksReset u.input = false) (hstep : step u = .next v) (hout : v.out = some o)
    (hacc : Accounted h u) : Accounted (h ++ [⟨u.input, o⟩]) v := by
  cases step_fate hacc.inv hno hstep hout with
  | unpolled hpop hrejects hdrops hsame =>
    exact accounted_of_sameBuffer hacc hsame (by rw [hpop, hrejects, hdrops]; rfl)
      (by rw [hrejects]; rfl) (by simp [hrejects]) (by simp [hdrops])
  | rejected hpop hrejects hdrops hsame _ hover =>
    exact accounted_of_sameBuffer hacc hsame (by rw [hpop, hrejects]; rfl)
      (by rw [hdrops, Bool.and_false]) (fun _ => hover) (by simp [hdrops])
  | dropped hpop hrejects hdrops hsame _ hover hfull =>
    exact accounted_of_sameBuffer hacc hsame (by rw [hpop, hrejects, hdrops]; rfl)
      (by rw [hrejects]; rfl) (by simp [hrejects]) (fun _ => ⟨hfull, hover⟩)
  | stored hpop hrejects hdrops hbytes hsize _ hover hroom =>
    refine ⟨bufferInv_step hacc.inv hstep, ?_, ?_, fun hpos => ?_, fun hpos => ?_⟩
    · rw [hbytes, hacc.bytes, storedBytes_concat, hpop, hrejects, hdrops]; rfl
    · have hbefore := hacc.balance
      rw [consumedBytes_concat, if_pos hpop, hsize]
      simp [hrejects, hdrops]
      omega
    · have hover' := hacc.rejected (by simpa [hrejects] using hpos)
      simp [hover] at hover'
    · exact absurd (hacc.dropped (by simpa [hdrops] using hpos)).1 hroom.ne

/-- Settles O48: the accounts hold of the empty record and every step keeps them. -/
theorem everyConsumedByteIsAccountedFor : Obligations.EveryConsumedByteIsAccountedFor := by
  intro n s t hempty hno hrun
  have hacc := run_history_induction accounted_step hno hrun (accounted_empty hempty)
  exact ⟨hacc.balance, hacc.rejected, fun hpos => (hacc.dropped hpos).2⟩

/-- A buffer becomes complete only by a step that shows `VALID`. -/
theorem shows_valid_of_becomes_complete {s t : State} {o : Outputs} (hstep : step s = .next t)
    (hout : t.out = some o) (hbefore : isComplete s = false) (hafter : isComplete t = true) :
    o.result = some .valid := by
  have hchanged : ¬ SameBuffer s t := fun hsame => by
    simp [isComplete_congr hsame, hbefore] at hafter
  rcases step_cases s with ⟨_, e⟩ | ⟨_, _, e⟩ | ⟨_, _, e⟩ | ⟨_, _, _, e⟩ <;>
    (rw [e] at hstep; cases hstep)
  · have hnone := isComplete_of_lt (s := finish s none false (emptyBuffer s)) Nat.zero_lt_two
    simp [hnone] at hafter
  · exact absurd ⟨rfl, rfl⟩ hchanged
  · cases hout
    rcases admitByte_cases Config.hardware s.input.srcData s with
      ⟨_, hadmit⟩ | ⟨_, _, hadmit⟩ | ⟨_, hnot, hadmit⟩
    · rw [hadmit] at hchanged
      exact absurd ⟨rfl, rfl⟩ hchanged
    · rw [hadmit]; rfl
    · rw [hadmit] at hafter
      exact absurd (hnot.symm.trans hafter) Bool.false_ne_true
  · exact absurd ⟨rfl, rfl⟩ hchanged

/-- The buffer of `u` is complete only if the record `h` that led to it shows a `VALID`. -/
def CompleteAfterValid (h : List Record) (u : State) : Prop :=
  isComplete u = true → ∃ r ∈ h, r.output.result = some .valid

theorem completeAfterValid_step (h : List Record) (u v : State) (o : Outputs)
    (_ : asksReset u.input = false) (hstep : step u = .next v) (hout : v.out = some o)
    (hu : CompleteAfterValid h u) : CompleteAfterValid (h ++ [⟨u.input, o⟩]) v := by
  intro hcomplete
  cases hbefore : isComplete u with
  | true =>
    obtain ⟨r, hr, hvalid⟩ := hu hbefore
    exact ⟨r, List.mem_append_left _ hr, hvalid⟩
  | false =>
    exact ⟨_, List.mem_append_right _ (List.mem_singleton_self _),
      shows_valid_of_becomes_complete hstep hout hbefore hcomplete⟩

theorem completeAfterValid_empty {s : State} (h : EmptyBuffer s) : CompleteAfterValid [] s :=
  fun hcomplete => by simp [isComplete_of_lt (show s.size < 2 by rw [h.2]; decide)] at hcomplete

/-- With no byte rejected or dropped, all the bytes consumed are stored. -/
theorem storedBytes_eq_consumedBytes {cfg : Config} {h : List Record}
    (hall : ∀ r ∈ h, r.rejects = false ∧ r.drops cfg = false) :
    storedBytes cfg h = consumedBytes h := by
  rw [storedBytes, List.filter_eq_self.mpr fun r hr => by simp [hall r hr]]

theorem forall_eq_false_of_countP {p : Record → Bool} {h : List Record} (hzero : ¬ 0 < h.countP p) :
    ∀ r ∈ h, p r = false := by
  simpa [List.countP_eq_zero] using Nat.eq_zero_of_not_pos hzero

/-- At the first `VALID` no byte has been rejected or dropped: a complete buffer is not oversized, and one that was
not complete before has grown, so it was not at capacity. -/
theorem nothing_lost_at_first_valid {n : Nat} {s t : State} (hempty : EmptyBuffer s)
    (hno : NoReset (n + 1) s) (hrun : Host.Core.run Sys2Proof.core (n + 1) s = .next t)
    (hcomplete : isComplete t = true)
    (hfirst : ∀ r ∈ history n s, r.output.result ≠ some .valid) :
    ∀ r ∈ history (n + 1) s, r.rejects = false ∧ r.drops Config.hardware = false := by
  have hacc := run_history_induction accounted_step hno hrun (accounted_empty hempty)
  have hkept := forall_eq_false_of_countP fun hpos => by
    simpa [not_isOversized_of_isComplete hcomplete] using hacc.rejected hpos
  refine fun r hr => ⟨hkept r hr, ?_⟩
  obtain ⟨u, o, hrun', hno', hlast, hstep, hout, hhistory⟩ := run_succ_last hno hrun
  have hacc' := run_history_induction accounted_step hno' hrun' (accounted_empty hempty)
  have hchanged : ¬ SameBuffer u t := fun hsame => by
    obtain ⟨r, hr, hvalid⟩ := run_history_induction completeAfterValid_step hno' hrun'
      (completeAfterValid_empty hempty) ((isComplete_congr hsame).symm.trans hcomplete)
    exact hfirst r hr hvalid
  cases step_fate hacc'.inv hlast hstep hout with
  | unpolled _ _ _ hsame | rejected _ _ _ hsame | dropped _ _ _ hsame => exact absurd hsame hchanged
  | stored _ _ hdrops _ _ _ _ hroom =>
    rw [hhistory] at hr
    obtain hr | hr := List.mem_append.mp hr
    · exact forall_eq_false_of_countP (fun hpos => hroom.ne (hacc'.dropped hpos).1) r hr
    · rwa [List.mem_singleton.mp hr]

/-- Settles O46: the last step leaves a complete buffer, and the accounts of the run say which bytes are in it. -/
theorem validMeansTheWholePacket : Obligations.ValidMeansTheWholePacket := by
  intro n s t hempty hno hrun hshows
  have hacc := run_history_induction accounted_step hno hrun (accounted_empty hempty)
  obtain ⟨u, o, -, -, -, hstep, hout, -⟩ := run_succ_last hno hrun
  have hvalid : o.result = some .valid := by simpa [hout] using hshows.1
  obtain ⟨-, -, hcomplete⟩ : o.srcPop = true ∧
      SameBuffer (append Config.hardware u.input.srcData u) t ∧ isComplete t = true := by
    simpa [hvalid] using step_result_cases hstep hout
  obtain ⟨len, hlen, hsize⟩ := (isComplete_iff t).mp hcomplete
  have hall : (∀ r ∈ history (n + 1) s, r.rejects = false ∧ r.drops Config.hardware = false) →
      validBytes t = consumedBytes (history (n + 1) s) :=
    fun hkept => hacc.bytes.trans (storedBytes_eq_consumedBytes hkept)
  exact ⟨⟨len, hlen, hsize⟩, two_le_of_declaredLength hlen, hacc.inv.2, hacc.bytes, hall,
    fun hfirst => hall (nothing_lost_at_first_valid hempty hno hrun hcomplete hfirst)⟩

end Sys2Proof.Machine
end

section
/-! PROOFS. The order of the stored bytes (20_memory.md R40): the valid bytes are the first bytes consumed, which
are the first bytes of the source. -/

namespace Sys2Proof.Machine

open Sys2Proof.Safety

/-- The valid bytes are the first `size` bytes consumed, and all of them as long as none was lost; once one was, the
buffer stays oversized or full. -/
structure InOrder (h : List Record) (u : State) : Prop where
  inv : BufferInv Config.hardware u
  bytes : validBytes u = (consumedBytes h).take u.size
  all : u.size = (consumedBytes h).length ∨ isOversized u = true ∨
    u.size = Config.hardware.maxPacketSize

theorem inOrder_empty {s : State} (h : EmptyBuffer s) : InOrder [] s where
  inv := bufferInv_empty h
  bytes := by rw [validBytes, h.1, h.2]; rfl
  all := .inl h.2

theorem length_validBytes {cfg : Config} {s : State} (hinv : BufferInv cfg s) :
    (validBytes s).length = s.size := by
  rw [validBytes, List.length_map, ← List.length_map (f := Prod.fst), hinv.1, List.length_range]

theorem InOrder.size_le {h : List Record} {u : State} (hu : InOrder h u) :
    u.size ≤ (consumedBytes h).length := by
  rw [← length_validBytes hu.inv, hu.bytes]
  exact List.length_take_le' ..

/-- A step that loses its byte keeps the order. -/
theorem inOrder_of_sameBuffer {h : List Record} {u v : State} {r : Record} (hu : InOrder h u)
    (hsame : SameBuffer u v)
    (hlost : r.output.srcPop = true →
      isOversized u = true ∨ u.size = Config.hardware.maxPacketSize) :
    InOrder (h ++ [r]) v where
  inv := bufferInv_of_eq hu.inv hsame.1 hsame.2
  bytes := by
    rw [validBytes_congr hsame, hu.bytes, hsame.2, consumedBytes_concat]
    split
    · rw [List.take_append_of_le_length hu.size_le]
    · rfl
  all := by
    rw [isOversized_congr hsame, hsame.2, consumedBytes_concat]
    cases hpop : r.output.srcPop with
    | true => exact .inr (hlost hpop)
    | false => exact hu.all

/-- Every step without a reset keeps the order. -/
theorem inOrder_step (h : List Record) (u v : State) (o : Outputs)
    (hno : asksReset u.input = false) (hstep : step u = .next v) (hout : v.out = some o)
    (hu : InOrder h u) : InOrder (h ++ [⟨u.input, o⟩]) v := by
  cases step_fate hu.inv hno hstep hout with
  | unpolled hpop _ _ hsame =>
    exact inOrder_of_sameBuffer hu hsame fun hpopped =>
      absurd (hpop.symm.trans hpopped) Bool.false_ne_true
  | rejected _ _ _ hsame _ hover => exact inOrder_of_sameBuffer hu hsame fun _ => .inl hover
  | dropped _ _ _ hsame _ _ hfull => exact inOrder_of_sameBuffer hu hsame fun _ => .inr hfull
  | stored hpop _ _ hbytes hsize _ hover hroom =>
    have hall : u.size = (consumedBytes h).length := by simpa [hover, hroom.ne] using hu.all
    have hlength : v.size = (consumedBytes (h ++ [⟨u.input, o⟩])).length := by
      rw [consumedBytes_concat, if_pos hpop, hsize, hall, List.length_append]; rfl
    refine ⟨bufferInv_step hu.inv hstep, ?_, .inl hlength⟩
    rw [hlength, List.take_length, consumedBytes_concat, if_pos hpop, hbytes, hu.bytes, hall,
      List.take_length]

/-- Cells listed from `k` on without gaps are read by their position. -/
theorem Memory.read_eq_getElem? {m : Memory} {k : Nat}
    (h : m.map Prod.fst = List.range' k m.length) (a : Nat) :
    m.read (k + a) = (m.map Prod.snd)[a]? := by
  induction m generalizing k a with
  | nil => rfl
  | cons c rest ih =>
    obtain ⟨j, v⟩ := c
    simp only [List.map_cons, List.length_cons, List.range'_succ, List.cons.injEq] at h
    obtain ⟨rfl, hrest⟩ := h
    cases a with
    | zero => simp [Memory.read]
    | succ a =>
      have hne : j + (a + 1) ≠ j := by omega
      rw [Memory.read, if_neg hne, ← Nat.add_assoc, Nat.add_right_comm, ih hrest]
      rfl

/-- In the invariant, the valid bytes are the cells by address. -/
theorem bufferInv_read {cfg : Config} {s : State} (hinv : BufferInv cfg s) (a : Nat) :
    s.body.read a = (validBytes s)[a]? := by
  have hlength : s.body.length = s.size := by
    rw [← length_validBytes hinv, validBytes, List.length_map]
  have h := Memory.read_eq_getElem? (m := s.body) (k := 0)
    (by rw [hinv.1, hlength, List.range_eq_range']) a
  rwa [Nat.zero_add] at h

/-- A source that serves a run holds the bytes consumed, in order, at its head. -/
theorem consumedBytes_prefix {src : Source} {h : List Record}
    (havail : ∀ r ∈ h, r.output.srcPop = true → r.input.srcAvail = true)
    (hserves : sourceServes src h = true) : consumedBytes h <+: src := by
  induction h generalizing src with
  | nil => exact List.nil_prefix
  | cons r h ih =>
    obtain ⟨hfirst, hrest⟩ := List.forall_mem_cons.mp havail
    simp only [sourceServes, Bool.and_eq_true, Bool.or_eq_true, Bool.not_eq_true',
      decide_eq_true_iff] at hserves
    obtain ⟨hhead, hserves⟩ := hserves
    rw [consumedBytes_cons]
    cases hpop : r.output.srcPop with
    | false => exact ih hrest (by simpa [Source.afterStep, hpop] using hserves)
    | true =>
      have hoffered : src.head? = some r.input.srcData := by simpa [hfirst hpop] using hhead
      obtain ⟨rest, rfl⟩ := List.head?_eq_some_iff.mp hoffered
      exact List.prefix_cons_inj _ |>.mpr
        (ih hrest (by simpa [Source.afterStep, hpop] using hserves))

/-- Settles O54: the valid bytes are the first `size` bytes consumed, and these are the first bytes of the source. -/
theorem storedBytesAreTheStream : Obligations.StoredBytesAreTheStream := by
  intro n s t src hempty hno hserves hrun
  have horder := run_history_induction inOrder_step hno hrun (inOrder_empty hempty)
  have hprefix := consumedBytes_prefix (fun r hr hpop => by
    obtain ⟨u, v, hstep, hout, hinput⟩ := exists_step_of_mem_history hr
    rw [hinput]
    exact ((step_ports hstep hout).2.mp hpop).2.2) hserves
  have hbytes : validBytes t = src.take t.size := by
    obtain ⟨rest, rfl⟩ := hprefix
    rw [horder.bytes, List.take_append_of_le_length horder.size_le]
  refine ⟨hbytes, fun a ha => ?_⟩
  have hlt : a < (validBytes t).length := by rwa [length_validBytes horder.inv]
  have hread : t.body.read a = some (validBytes t)[a] := by
    rw [bufferInv_read horder.inv, List.getElem?_eq_getElem hlt]
  refine ⟨_, ?_, hread⟩
  rw [← hread, bufferInv_read horder.inv, hbytes, List.getElem?_take_of_lt ha]

end Sys2Proof.Machine
end

section
/-! PROOFS. Stream trajectories (41_byte_admission.md R101): along a run from an empty buffer the length is that of
the first two bytes consumed, and the fate of each byte is then the row of the table. -/

namespace Sys2Proof.Machine

open Sys2Proof.Safety

/-- No other length than `len` is declared by the bytes `c`. -/
def Declares (len : Nat) (c : List Byte) : Prop := ∀ l, streamLength c = some l → l = len

theorem streamLength_append {c : List Byte} {l : Nat} (h : streamLength c = some l) (d : List Byte) :
    streamLength (c ++ d) = some l := by
  match c, h with
  | _ :: _ :: _, h => exact h

theorem Declares.of_append {len : Nat} {c d : List Byte} (h : Declares len (c ++ d)) :
    Declares len c := fun l hl => h l (streamLength_append hl d)

theorem streamLength_of_getElem? {bs : List Byte} {hi lo : Byte} (h0 : bs[0]? = some hi)
    (h1 : bs[1]? = some lo) : streamLength bs = some (256 * hi.toNat + lo.toNat) := by
  match bs with
  | [] => cases h0
  | [_] => cases h1
  | _ :: _ :: _ => cases h0; cases h1; rfl

/-- A length that the state knows is the length that the bytes consumed declare. -/
theorem InOrder.declaredLength {h : List Record} {u : State} {len : Nat} (hu : InOrder h u)
    (hdecl : Declares len (consumedBytes h)) (h2 : 2 ≤ u.size) :
    ∃ L, declaredLength u = some L ∧ L.toNat = len := by
  obtain ⟨hi, lo, h0, h1, hlen⟩ := bufferInv_declaredLength hu.inv h2
  rw [memRead1_of_lt (by omega), bufferInv_read hu.inv, hu.bytes,
    List.getElem?_take_of_lt (by omega)] at h0 h1
  refine ⟨_, hlen, ?_⟩
  rw [toNat_bigEndian]
  exact hdecl _ (streamLength_of_getElem? h0 h1)

theorem InOrder.isOversized_iff {h : List Record} {u : State} {len : Nat} (hu : InOrder h u)
    (hdecl : Declares len (consumedBytes h)) :
    isOversized u = true ↔ 2 ≤ u.size ∧ len < u.size := by
  rcases Nat.lt_or_ge u.size 2 with hlt | h2
  · simp [isOversized_of_lt hlt, Nat.not_le.mpr hlt]
  · obtain ⟨L, hlen, rfl⟩ := hu.declaredLength hdecl h2
    simp [isOversized_of_declaredLength hlen, h2]

theorem InOrder.isComplete_iff {h : List Record} {u : State} {len : Nat} (hu : InOrder h u)
    (hdecl : Declares len (consumedBytes h)) :
    isComplete u = true ↔ 2 ≤ u.size ∧ u.size = len := by
  rcases Nat.lt_or_ge u.size 2 with hlt | h2
  · simp [isComplete_of_lt hlt, Nat.not_le.mpr hlt]
  · obtain ⟨L, hlen, rfl⟩ := hu.declaredLength hdecl h2
    simp [isComplete_of_declaredLength hlen, h2]

/-! The table of R101, by the fate of the byte after the `k`-th. -/

theorem trajectory_rejected {len k : Nat} (h2 : 2 ≤ trajectorySize len k)
    (hover : len < trajectorySize len k) :
    trajectorySize len (k + 1) = trajectorySize len k ∧
      trajectoryResult len (k + 1) = .invalid := by
  unfold trajectorySize trajectoryResult at *
  split_ifs at * <;> simp <;> omega

theorem trajectory_dropped {len k : Nat} (hfull : trajectorySize len k = 256) (hle : 256 ≤ len) :
    trajectorySize len (k + 1) = 256 ∧
      trajectoryResult len (k + 1) = if 256 = len then .valid else .reading := by
  unfold trajectorySize trajectoryResult at *
  split_ifs at * <;> simp <;> omega

theorem trajectory_stored {len k : Nat} (hroom : trajectorySize len k < 256)
    (hnot : ¬ (2 ≤ trajectorySize len k ∧ len < trajectorySize len k)) :
    trajectorySize len (k + 1) = trajectorySize len k + 1 ∧
      trajectoryResult len (k + 1) =
        if 2 ≤ trajectorySize len k + 1 ∧ trajectorySize len k + 1 = len then .valid
        else .reading := by
  unfold trajectorySize trajectoryResult at *
  split_ifs at * <;> simp <;> omega

/-- The record `h` that led to `u` followed the table for the length `len`. -/
structure OnTrajectory (len : Nat) (h : List Record) (u : State) : Prop where
  size : u.size = trajectorySize len (consumedBytes h).length
  results : byteResults h =
    (List.range (consumedBytes h).length).map fun j => trajectoryResult len (j + 1)

theorem onTrajectory_empty {s : State} (hempty : EmptyBuffer s) (len : Nat) :
    OnTrajectory len [] s where
  size := hempty.2.trans (by simp [consumedBytes, trajectorySize])
  results := rfl

theorem byteResults_concat (h : List Record) (r : Record) :
    byteResults (h ++ [r]) =
      if r.output.srcPop then byteResults h ++ r.output.result.toList else byteResults h := by
  rw [byteResults, List.filterMap_append]
  exact (congrArg (byteResults h ++ ·) (byteResults_cons r [])).trans
    (by cases r.output.srcPop <;> simp [byteResults])

/-- A consumed byte with the result and the `size` of its row keeps to the table. -/
theorem OnTrajectory.concat {len : Nat} {h : List Record} {u v : State} {r : Record}
    (hu : OnTrajectory len h u) (hpop : r.output.srcPop = true)
    (hrow : v.size = trajectorySize len ((consumedBytes h).length + 1) ∧
      r.output.result = some (trajectoryResult len ((consumedBytes h).length + 1))) :
    OnTrajectory len (h ++ [r]) v := by
  obtain ⟨hsize, hresult⟩ := hrow
  have hlength : (consumedBytes (h ++ [r])).length = (consumedBytes h).length + 1 := by
    rw [consumedBytes_concat, if_pos hpop, List.length_append]; rfl
  refine ⟨by rw [hlength, hsize], ?_⟩
  rw [hlength, byteResults_concat, if_pos hpop, hu.results, hresult, List.range_succ, List.map_append]
  rfl

/-- A run in order keeps to the table of every length that its bytes can declare. -/
def FollowsTable (h : List Record) (u : State) : Prop :=
  InOrder h u ∧ ∀ len, Declares len (consumedBytes h) → OnTrajectory len h u

theorem followsTable_empty {s : State} (hempty : EmptyBuffer s) : FollowsTable [] s :=
  ⟨inOrder_empty hempty, fun len _ => onTrajectory_empty hempty len⟩

/-- Every step without a reset keeps to the table. -/
theorem followsTable_step (h : List Record) (u v : State) (o : Outputs)
    (hno : asksReset u.input = false) (hstep : step u = .next v) (hout : v.out = some o)
    (hu : FollowsTable h u) : FollowsTable (h ++ [⟨u.input, o⟩]) v := by
  obtain ⟨horder, htable⟩ := hu
  have horder' := inOrder_step h u v o hno hstep hout horder
  refine ⟨horder', fun len hdecl' => ?_⟩
  have hdecl : Declares len (consumedBytes h) := by
    rw [consumedBytes_append] at hdecl'
    exact hdecl'.of_append
  have htraj := htable len hdecl
  have hsize := htraj.size
  have hover := horder.isOversized_iff hdecl
  have hcomplete := horder'.isComplete_iff hdecl'
  cases step_fate horder.inv hno hstep hout with
  | unpolled hpop _ _ hsame =>
    have hconsumed : consumedBytes (h ++ [⟨u.input, o⟩]) = consumedBytes h := by
      rw [consumedBytes_concat, hpop]; rfl
    exact ⟨by rw [hconsumed, hsame.2, hsize],
      by rw [hconsumed, byteResults_concat, hpop]; exact htraj.results⟩
  | rejected hpop _ _ hsame hresult hovers =>
    obtain ⟨h2, hlt⟩ := hover.mp hovers
    rw [hsize] at h2 hlt
    obtain ⟨hrow, hrow'⟩ := trajectory_rejected h2 hlt
    exact htraj.concat hpop ⟨by rw [hsame.2, hsize, hrow], by rw [hresult, hrow']⟩
  | dropped hpop _ _ hsame hresult hnot hfull =>
    have hfull' : u.size = 256 := hfull
    have hle : 256 ≤ len := by
      have : ¬ (2 ≤ u.size ∧ len < u.size) := fun hlt => by simp [hover.mpr hlt] at hnot
      omega
    obtain ⟨hrow, hrow'⟩ := trajectory_dropped (hsize.symm.trans hfull') hle
    refine htraj.concat hpop ⟨by rw [hsame.2, hfull', hrow], ?_⟩
    rw [hresult, hrow']
    simp [hcomplete, hsame.2, hfull']
  | stored hpop _ _ _ hgrown hresult hnot hroom =>
    have hroom' : u.size < 256 := hroom
    have hlt : ¬ (2 ≤ u.size ∧ len < u.size) := fun hlt => by simp [hover.mpr hlt] at hnot
    rw [hsize] at hroom' hlt
    obtain ⟨hrow, hrow'⟩ := trajectory_stored hroom' hlt
    refine htraj.concat hpop ⟨by rw [hgrown, hsize, hrow], ?_⟩
    rw [hresult, hrow', ← hsize, ← hgrown]
    simp only [hcomplete]

/-- A step that consumes no byte shows `WAITING` in a `POLL` and nothing else. -/
theorem result_of_not_srcPop {s t : State} {o : Outputs} (hstep : step s = .next t)
    (hout : t.out = some o) (hpop : o.srcPop = false) :
    o.result = if polls s.input then some .waiting else none := by
  have hpolls : o.result.isSome = polls s.input := by
    rw [Bool.eq_iff_iff, (step_ports hstep hout).1]
    simp [polls]
  cases hresult : o.result with
  | none => rw [← hpolls, hresult]; rfl
  | some x => rw [← hpolls, hresult, step_result_of_not_srcPop hstep hout hpop hresult]; rfl

/-- A run from an empty buffer without a reset follows the table. -/
theorem run_followsTable {n : Nat} {s t : State} (hempty : EmptyBuffer s) (hno : NoReset n s)
    (hrun : Host.Core.run Sys2Proof.core n s = .next t) : FollowsTable (history n s) t :=
  run_history_induction followsTable_step hno hrun (followsTable_empty hempty)

theorem declares_of_streamLength {len : Nat} {c : List Byte} (h : streamLength c = some len) :
    Declares len c := fun _ hl => Option.some.inj (hl.symm.trans h)

/-- Settles O47: the run follows the table of the length it declares, and each step that consumes nothing is
looked at by itself. -/
theorem streamTrajectories : Obligations.StreamTrajectories := by
  intro n s len hempty hno hlen
  obtain ⟨t, hrun⟩ := run_next n s
  obtain ⟨hsize, hresults⟩ :=
    (run_followsTable hempty hno hrun).2 len (declares_of_streamLength hlen)
  refine ⟨t, hrun, hsize, hresults, fun r hr hpop => ?_⟩
  obtain ⟨u, v, hstep, hout, hinput⟩ := exists_step_of_mem_history hr
  rw [hinput]
  exact result_of_not_srcPop hstep hout hpop

end Sys2Proof.Machine
end

section
/-! PROOFS. The packet round trip (30_encoding.md R63, 95_test_vectors.md S7): a script of `POLL.BYTE` commands
consumes its bytes, and a packet's first two bytes declare its length. -/

namespace Sys2Proof.Machine

open Sys2Proof.Safety

/-- A script of `POLL.BYTE` commands asks for no reset and its bytes are the bytes consumed. -/
theorem history_inputsOf_pollByte (bytes : List Byte) (rdAddr : BitVec 8) {s : State}
    (hscript : s.script = inputsOf (bytes.map Instr.pollByte) rdAddr) :
    NoReset bytes.length s ∧ consumedBytes (history bytes.length s) = bytes := by
  induction bytes generalizing s with
  | nil => exact ⟨List.forall_mem_nil _, rfl⟩
  | cons b bytes ih =>
    have hinput : s.input = Inputs.ofWord (encode (.pollByte b)) rdAddr := by
      rw [State.input, hscript]; rfl
    have hrst : s.input.rst = false := by rw [hinput]; rfl
    have hpoll : decode s.input.word = .pollByte b := by
      rw [hinput, word_ofWord, decode_encode]
    have hdata : s.input.srcData = b := by rw [hinput]; exact dataField_commandWord ..
    have hstep := (step_of_not_rst hrst).trans (by rw [hpoll, exec_pollByte_eq])
    obtain ⟨hno, hconsumed⟩ := ih (s := afterPollByte b s)
      (by rw [afterPollByte, finish_script, hscript]; rfl)
    rw [NoReset, List.length_cons, history_succ hstep (finish_out ..), List.forall_mem_cons,
      consumedBytes_cons, hconsumed]
    exact ⟨⟨by simp [asksReset, hrst, hpoll], hno⟩, by rw [hdata]; rfl⟩

/-- The two bytes of a length field, the more significant first, declare the length. -/
theorem bigEndian_extract (len : Length) :
    256 * (len.extractLsb' 8 8 : Byte).toNat + (len.extractLsb' 0 8 : Byte).toNat = len.toNat := by
  simp only [BitVec.extractLsb'_toNat, Nat.shiftRight_eq_div_pow]
  have := len.isLt
  omega

theorem trajectoryResult_before {len k : Nat} (h2 : 2 ≤ len) (hfits : len ≤ 256) (hk : k < len) :
    trajectoryResult len k = .reading := by
  unfold trajectoryResult
  split_ifs <;> grind

theorem trajectoryResult_last {len : Nat} (h2 : 2 ≤ len) (hfits : len ≤ 256) :
    trajectoryResult len len = .valid := by
  unfold trajectoryResult
  split_ifs <;> grind

theorem trajectorySize_last {len : Nat} (h2 : 2 ≤ len) (hfits : len ≤ 256) :
    trajectorySize len len = len := by
  unfold trajectorySize
  split_ifs <;> omega

/-- The results of a packet that fits: `READING` up to its last byte, which is `VALID`. -/
theorem trajectoryResult_packet {n : Nat} (h2 : 2 ≤ n + 1) (hfits : n + 1 ≤ 256) :
    (List.range (n + 1)).map (fun j => trajectoryResult (n + 1) (j + 1)) =
      List.replicate n .reading ++ [.valid] := by
  have hbefore : (List.range n).map (fun j => trajectoryResult (n + 1) (j + 1)) =
      List.replicate n .reading := by
    refine List.eq_replicate_iff.mpr ⟨by simp, fun x hx => ?_⟩
    obtain ⟨j, hj, rfl⟩ := List.mem_map.mp hx
    have hlt := List.mem_range.mp hj
    exact trajectoryResult_before h2 hfits (by omega)
  rw [List.range_succ, List.map_append, hbefore, List.map_singleton, trajectoryResult_last h2 hfits]

/-- The header values by the valid bytes. -/
theorem declaredLength_of_validBytes {cfg : Config} {s : State} {hi lo : Byte} {rest : List Byte}
    (hinv : BufferInv cfg s) (hbytes : validBytes s = hi :: lo :: rest) :
    declaredLength s = some (hi ++ lo) := by
  have hsize : 2 ≤ s.size := by
    rw [← length_validBytes hinv, hbytes]
    exact Nat.le_add_left ..
  rw [declaredLength, if_neg (Nat.not_lt.mpr hsize), memRead2, memRead1_of_lt (by omega),
    memRead1_of_lt (by omega), bufferInv_read hinv, bufferInv_read hinv, hbytes]
  rfl

theorem declaredType_of_validBytes {cfg : Config} {s : State} {hi lo type : Byte}
    {rest : List Byte} (hinv : BufferInv cfg s) (hbytes : validBytes s = hi :: lo :: type :: rest) :
    declaredType s = some type := by
  have hsize : 3 ≤ s.size := by
    rw [← length_validBytes hinv, hbytes]
    exact Nat.le_add_left ..
  rw [declaredType, if_neg (Nat.not_lt.mpr hsize), memRead1_of_lt (by omega), bufferInv_read hinv,
    hbytes]
  rfl

/-- A whole packet of `n + 1` bytes, consumed from an empty buffer, is stored and shows `VALID` at its end. -/
theorem run_packet {n : Nat} {s t : State} {bytes : List Byte} (hempty : EmptyBuffer s)
    (hno : NoReset (n + 1) s) (hrun : Host.Core.run Sys2Proof.core (n + 1) s = .next t)
    (hconsumed : consumedBytes (history (n + 1) s) = bytes) (hlength : bytes.length = n + 1)
    (hdeclared : streamLength bytes = some (n + 1)) (h2 : 2 ≤ n + 1) (hfits : n + 1 ≤ 256) :
    BufferInv Config.hardware t ∧ t.size = n + 1 ∧ validBytes t = bytes ∧
      byteResults (history (n + 1) s) = List.replicate n .reading ++ [.valid] := by
  obtain ⟨horder, htable⟩ := run_followsTable hempty hno hrun
  obtain ⟨hsize, hresults⟩ := htable (n + 1) (declares_of_streamLength (hconsumed ▸ hdeclared))
  rw [hconsumed, hlength] at hsize hresults
  rw [trajectorySize_last h2 hfits] at hsize
  rw [trajectoryResult_packet h2 hfits] at hresults
  refine ⟨horder.inv, hsize, ?_, hresults⟩
  rw [horder.bytes, hconsumed, hsize, ← hlength, List.take_length]

/-- Settles O55: the script's bytes are consumed, the first two declare their number, and so the run is that of a
whole packet. -/
theorem packetRoundTrip : Obligations.PacketRoundTrip := by
  intro s type payload rdAddr hempty hfits hscript
  have hcap : payload.length + 3 ≤ 256 := hfits
  have hlen : (BitVec.ofNat 16 (3 + payload.length)).toNat = payload.length + 3 := by
    rw [BitVec.toNat_ofNat]; omega
  have hvalue := (bigEndian_extract (BitVec.ofNat 16 (3 + payload.length))).trans hlen
  obtain ⟨hno, hconsumed⟩ := history_inputsOf_pollByte (_ :: _ :: type :: payload) rdAddr hscript
  obtain ⟨t, hrun⟩ := run_next (payload.length + 3) s
  obtain ⟨hinv, hsize, hbytes, hresults⟩ := run_packet (n := payload.length + 2) hempty hno hrun
    hconsumed rfl (congrArg some hvalue) (by omega) hcap
  exact ⟨t, _, _, hrun, hbytes, hvalue, hsize, declaredLength_of_validBytes hinv hbytes,
    declaredType_of_validBytes hinv hbytes, hresults⟩

end Sys2Proof.Machine
end

section
/-! PROOFS. The caller's duties (70_reset_and_hazards.md R143, R145, R146; 93_implementation_defined.md U6): a caller
that answers every terminal result with a reset never polls a complete buffer. -/

namespace Sys2Proof.Machine

open Sys2Proof.Safety

/-- Every record of a run that begins in the invariant is that of a step from a state that meets it. -/
theorem exists_step_of_mem_history_of_inv {n : Nat} {s : State} {r : Record}
    (hinv : BufferInv Config.hardware s) (hr : r ∈ history n s) :
    ∃ u t, BufferInv Config.hardware u ∧ step u = .next t ∧ t.out = some r.output ∧
      r.input = u.input := by
  induction n generalizing s with
  | zero => simp at hr
  | succ n ih =>
    obtain ⟨t, hstep⟩ := step_next s
    obtain ⟨-, _, _, hout⟩ := step_frame hstep
    rw [history_succ hstep hout] at hr
    rcases List.mem_cons.mp hr with rfl | hr
    · exact ⟨s, t, hinv, hstep, hout, rfl⟩
    · exact ih (bufferInv_step hinv hstep) hr

theorem polls_iff (i : Inputs) : polls i = true ↔ i.rst = false ∧ i.op = 0b01#2 := by
  simp [polls]

/-- A step has a result exactly when it polls. -/
theorem polls_iff_result {s t : State} {o : Outputs} (hstep : step s = .next t)
    (hout : t.out = some o) : polls s.input = true ↔ o.result.isSome = true :=
  (polls_iff _).trans (step_ports hstep hout).1.symm

/-- A step that consumes a byte polls. -/
theorem polls_of_srcPop {s t : State} {o : Outputs} (hstep : step s = .next t)
    (hout : t.out = some o) (hpop : o.srcPop = true) : polls s.input = true := by
  obtain ⟨hrst, hop, -⟩ := (step_ports hstep hout).2.mp hpop
  exact (polls_iff _).mpr ⟨hrst, hop⟩

/-- A poll asks for no reset. -/
theorem asksReset_of_polls {i : Inputs} (h : polls i = true) : asksReset i = false := by
  obtain ⟨hrst, hop⟩ := (polls_iff i).mp h
  rw [asksReset, hrst, Inputs.word, hop, decode_poll]
  cases i.srcAvail <;> rfl

/-- A step that asks for a reset empties the buffer. -/
theorem emptyBuffer_of_asksReset {s t : State} (hasks : asksReset s.input = true)
    (hstep : step s = .next t) : EmptyBuffer t := by
  rcases step_cases s with ⟨_, e⟩ | ⟨hrst, hwait, _⟩ | ⟨hrst, hpoll, _⟩ | ⟨hno, _⟩
  · rw [e] at hstep; cases hstep; exact ⟨rfl, rfl⟩
  · simp [asksReset, hrst, hwait] at hasks
  · simp [asksReset, hrst, hpoll] at hasks
  · simp [hno] at hasks

theorem isComplete_of_emptyBuffer {s : State} (h : EmptyBuffer s) : isComplete s = false :=
  isComplete_of_lt (by rw [h.2]; decide)

/-- A step that neither polls nor asks for a reset leaves the buffer. -/
theorem sameBuffer_of_not_polls {s t : State} (hno : asksReset s.input = false)
    (hpolls : polls s.input = false) (hstep : step s = .next t) : SameBuffer s t := by
  obtain hsame | ⟨hpoll, -, -⟩ := step_appends_or_keeps hno hstep
  · exact hsame
  · have hexec : step s = .next (afterPollByte s.input.srcData s) := by
      rw [step_of_not_rst (rst_eq_false_of_not_asksReset hno), hpoll, exec_pollByte_eq]
    simp [(polls_iff_result hexec (finish_out ..)).mpr rfl] at hpolls

/-- The duty to answer a terminal result is noted whenever the buffer is complete. -/
def Noted (pending : Bool) (s : State) : Prop := isComplete s = true → pending = true

/-- A disciplined caller's first step does not poll a complete buffer, and the discipline goes on with every
complete buffer noted. -/
theorem resetsAfterTerminal_step {s t : State} {o : Outputs} {pending : Bool} {rest : List Record}
    (hstep : step s = .next t) (hout : t.out = some o) (hnoted : Noted pending s)
    (hduty : resetsAfterTerminal pending (⟨s.input, o⟩ :: rest) = true) :
    (polls s.input = true → isComplete s = false) ∧
      ∃ pending', Noted pending' t ∧ resetsAfterTerminal pending' rest = true := by
  cases hasks : asksReset s.input with
  | true =>
    have hnopoll : polls s.input ≠ true := fun h => by simp [asksReset_of_polls h] at hasks
    have hempty := isComplete_of_emptyBuffer (emptyBuffer_of_asksReset hasks hstep)
    refine ⟨fun h => absurd h hnopoll, false, fun h => by simp [hempty] at h, ?_⟩
    simpa [resetsAfterTerminal, hasks] using hduty
  | false =>
    cases hpolls : polls s.input with
    | true =>
      obtain ⟨rfl, hrest⟩ : pending = false ∧ resetsAfterTerminal
          (decide (o.result = some .valid ∨ o.result = some .invalid)) rest = true := by
        simpa [resetsAfterTerminal, hasks, hpolls] using hduty
      have hbefore : isComplete s = false :=
        Bool.eq_false_iff.mpr fun h => Bool.false_ne_true (hnoted h)
      refine ⟨fun _ => hbefore, _, fun hafter => decide_eq_true (.inl ?_), hrest⟩
      exact shows_valid_of_becomes_complete hstep hout hbefore hafter
    | false =>
      have hsame := sameBuffer_of_not_polls hasks hpolls hstep
      refine ⟨nofun, pending, fun hafter => hnoted ?_, ?_⟩
      · rwa [← isComplete_congr hsame]
      · simpa [resetsAfterTerminal, hasks, hpolls] using hduty

/-- A disciplined caller polls no complete buffer. -/
theorem not_complete_of_polled {n : Nat} {s : State} {pending : Bool} (hnoted : Noted pending s)
    (hduty : resetsAfterTerminal pending (history n s) = true) {r : Record} (hr : r ∈ history n s)
    (hpop : r.output.srcPop = true) {len : Length} (hlen : r.output.dlen = some len) :
    r.output.size ≠ len.toNat := by
  induction n generalizing s pending with
  | zero => simp at hr
  | succ n ih =>
    obtain ⟨t, hstep⟩ := step_next s
    obtain ⟨-, _, _, hout⟩ := step_frame hstep
    rw [history_succ hstep hout] at hr hduty
    obtain ⟨hfirst, pending', hnoted', hduty'⟩ := resetsAfterTerminal_step hstep hout hnoted hduty
    rcases List.mem_cons.mp hr with rfl | hr
    · have hnot := hfirst (polls_of_srcPop hstep hout hpop)
      rwa [isComplete_of_declaredLength hlen, decide_eq_false_iff_not] at hnot
    · exact ih hnoted' hduty' hr

theorem noted_of_emptyBuffer {s : State} (h : EmptyBuffer s) : Noted false s := fun hcomplete => by
  simp [isComplete_of_emptyBuffer h] at hcomplete

/-- Settles O51: no byte is polled at `size == declared_length`, where alone the two tests differ. -/
theorem oversizeTestsAgreeUnderDiscipline : Obligations.OversizeTestsAgreeUnderDiscipline := by
  intro n s hempty hduty r hr hpop len hlen
  have hne := not_complete_of_polled (noted_of_emptyBuffer hempty) hduty hr hpop hlen
  obtain ⟨u, t, hstep, hout, -⟩ := exists_step_of_mem_history hr
  obtain ⟨hsize, hdlen, hover⟩ := step_shows_pre_state hstep hout
  refine ⟨hne, ?_⟩
  rw [hover, isOversized_of_declaredLength (hdlen.symm.trans hlen), ← hsize]
  exact decide_eq_decide.mpr (Ne.le_iff_lt hne.symm).symm

/-- A byte is dropped only at capacity, from a buffer that declares at least `N` bytes. -/
theorem length_ge_of_drops {u t : State} {r : Record} (hinv : BufferInv Config.hardware u)
    (hstep : step u = .next t) (hout : t.out = some r.output)
    (hdrops : r.drops Config.hardware = true) :
    r.output.srcPop = true ∧ r.output.size = Config.hardware.maxPacketSize ∧
      ∃ len, r.output.dlen = some len ∧ Config.hardware.maxPacketSize ≤ len.toNat := by
  obtain ⟨⟨hpop, hkept⟩, hfull⟩ : (r.output.srcPop = true ∧ r.output.result ≠ some .invalid) ∧
      r.output.size = Config.hardware.maxPacketSize := by
    simpa [Record.drops] using hdrops
  obtain ⟨hsize, hdlen, -⟩ := step_shows_pre_state hstep hout
  have hover : isOversized u = false := by
    have hno := asksReset_of_polls (polls_of_srcPop hstep hout hpop)
    cases step_fate hinv hno hstep hout with
    | unpolled hnopop _ _ _ => exact absurd (hnopop.symm.trans hpop) Bool.false_ne_true
    | rejected _ _ _ _ hresult _ => exact absurd hresult hkept
    | dropped _ _ _ _ _ hover _ | stored _ _ _ _ _ _ hover _ => exact hover
  obtain ⟨len, hlen, hle⟩ := length_ge_of_full hinv (hsize.symm.trans hfull) hover
  exact ⟨hpop, hfull, len, hdlen.trans hlen, hle⟩

/-- Settles O50: a drop would need a length of at least `N` at `size == N`; the caller does not poll with a longer
one, and not with an equal one, where the buffer is complete. -/
theorem disciplinedCallerDropsNothing : Obligations.DisciplinedCallerDropsNothing := by
  intro n s hempty hduty hchecks r hr
  refine Bool.eq_false_iff.mpr fun hdrops => ?_
  obtain ⟨u, t, hinv, hstep, hout, hinput⟩ :=
    exists_step_of_mem_history_of_inv (bufferInv_empty hempty) hr
  obtain ⟨hpop, hfull, len, hlen, hge⟩ := length_ge_of_drops hinv hstep hout hdrops
  have hne := not_complete_of_polled (noted_of_emptyBuffer hempty) hduty hr hpop hlen
  have hle : len.toNat ≤ Config.hardware.maxPacketSize := by
    have hcheck := List.all_eq_true.mp hchecks r hr
    simpa [hinput, polls_of_srcPop hstep hout hpop, hlen] using hcheck
  omega

/-- Settles O49: `INVALID` needs an oversized pre-state, which the port shows, and a `POLL`. -/
theorem heedingOversizedAvoidsInvalid : Obligations.HeedingOversizedAvoidsInvalid := by
  intro n s hheeds r hr hinvalid
  obtain ⟨u, t, hstep, hout, hinput⟩ := exists_step_of_mem_history hr
  obtain ⟨hpop, -, hover⟩ : r.output.srcPop = true ∧ SameBuffer u t ∧ isOversized u = true := by
    simpa [hinvalid] using step_result_cases hstep hout
  obtain ⟨-, -, hport⟩ := step_shows_pre_state hstep hout
  have hpolls := polls_of_srcPop hstep hout hpop
  have hheed := List.all_eq_true.mp hheeds r hr
  simp [hinput, hpolls, hport, hover] at hheed

end Sys2Proof.Machine
end
